-- ==== Sys2Proof/Word.lean ====
section
/-! DEFINITION. The plain word types of the CHIP-8 CORE (spec/00_scope.md R5, R7): everything is unsigned, and
a bit vector is used exactly where the spec gives a width in bits and computes on the value. -/

namespace Sys2Proof

/-- A general register, a timer, a memory byte, the immediate `nn`: 8 bits, unsigned (R5 V_WIDTH, R7). -/
abbrev Byte := BitVec 8

/-- The Index register, the program counter, a stack slot, a fetched instruction: 16 bits (R5). -/
abbrev Word := BitVec 16

/-- The 12-bit immediate address `nnn` (R62). -/
abbrev Addr := BitVec 12

/-- The number of a general register, V0 to VF: a name, never shifted or added (R10, R62). -/
abbrev Reg := Fin 16

/-- The value `keyPress` can deliver: its port is 4 bits wide, 0 to 15 (R143). -/
abbrev Key := Fin 16

/-- The flag register VF is register 15 (R11). -/
abbrev VF : Reg := 15

end Sys2Proof
end

