-- ==== Sys2Proof/Syntax.lean ====
section
/-! DEFINITION. The 34 instructions of spec/opcode_table.json, one constructor a row, in the table's order
(spec/30_encoding.md R65). Register numbers, immediates and addresses have types that hold exactly the values their
fields can take; the sprite height `n` is a count and its bound is checked by `Instr.wf`. -/

namespace Sys2Proof

/-- The instructions of R65. `x` and `y` name general registers, `nn` and `nnn` are unsigned immediates (R64). -/
inductive Instr where
  /-- 00E0 CLS (R131) -/
  | cls
  /-- 00EE RET (R80) -/
  | ret
  /-- 1nnn JP addr (R81) -/
  | jp (nnn : Addr)
  /-- 2nnn CALL addr (R82) -/
  | call (nnn : Addr)
  /-- 3xnn SE Vx, nn (R83) -/
  | seImm (x : Reg) (nn : Byte)
  /-- 4xnn SNE Vx, nn (R84) -/
  | sneImm (x : Reg) (nn : Byte)
  /-- 5xy0 SE Vx, Vy (R85) -/
  | seReg (x y : Reg)
  /-- 6xnn LD Vx, nn (R101) -/
  | ldImm (x : Reg) (nn : Byte)
  /-- 7xnn ADD Vx, nn (R102) -/
  | addImm (x : Reg) (nn : Byte)
  /-- 8xy0 LD Vx, Vy (R103) -/
  | ldReg (x y : Reg)
  /-- 8xy1 OR Vx, Vy (R104) -/
  | orReg (x y : Reg)
  /-- 8xy2 AND Vx, Vy (R105) -/
  | andReg (x y : Reg)
  /-- 8xy3 XOR Vx, Vy (R106) -/
  | xorReg (x y : Reg)
  /-- 8xy4 ADD Vx, Vy (R107) -/
  | addReg (x y : Reg)
  /-- 8xy5 SUB Vx, Vy (R108) -/
  | subReg (x y : Reg)
  /-- 8xy6 SHR Vx (R109); the field `y` is decoded and ignored (R67) -/
  | shr (x y : Reg)
  /-- 8xy7 SUBN Vx, Vy (R110) -/
  | subnReg (x y : Reg)
  /-- 8xyE SHL Vx (R111); the field `y` is decoded and ignored (R67) -/
  | shl (x y : Reg)
  /-- 9xy0 SNE Vx, Vy (R86) -/
  | sneReg (x y : Reg)
  /-- Annn LD I, addr (R120) -/
  | ldI (nnn : Addr)
  /-- Bnnn JP V0, addr (R87) -/
  | jpV0 (nnn : Addr)
  /-- Cxnn RND Vx, nn (R113) -/
  | rnd (x : Reg) (nn : Byte)
  /-- Dxyn DRW Vx, Vy, n (R132); `n` is the number of sprite rows -/
  | drw (x y : Reg) (n : Nat)
  /-- Ex9E SKP Vx (R141) -/
  | skp (x : Reg)
  /-- ExA1 SKNP Vx (R142) -/
  | sknp (x : Reg)
  /-- Fx07 LD Vx, DT (R150) -/
  | ldVxDT (x : Reg)
  /-- Fx0A LD Vx, K (R144) -/
  | ldVxK (x : Reg)
  /-- Fx15 LD DT, Vx (R151) -/
  | ldDTVx (x : Reg)
  /-- Fx18 LD ST, Vx (R152) -/
  | ldSTVx (x : Reg)
  /-- Fx1E ADD I, Vx (R121) -/
  | addIVx (x : Reg)
  /-- Fx29 LD F, Vx (R122) -/
  | ldFVx (x : Reg)
  /-- Fx33 LD B, Vx (R123) -/
  | ldBVx (x : Reg)
  /-- Fx55 LD [I], Vx (R124): stores V0 to Vx -/
  | ldMemVx (x : Reg)
  /-- Fx65 LD Vx, [I] (R125): loads V0 to Vx -/
  | ldVxMem (x : Reg)
deriving DecidableEq, Repr

end Sys2Proof
end

