-- ==== Sys2Proof/Config.lean ====
section
/-! DEFINITION. What is fixed for the machine: the parameters of spec/00_scope.md R5, and the free values, which are
opaque constants with no body: no proof can see one, so a claim holds whatever they are. (The parameter FONT is
the table `Sys2Proof.Machine.font` of Sys2Proof/Machine/Memory.lean.) -/

namespace Sys2Proof.Config

/-- MEM_SIZE: addresses 0 to 4095 (R5, R40). -/
abbrev memSize : Nat := 4096

/-- PROG_BASE: where a program is loaded and where execution starts (R5, R25). -/
abbrev progBase : Nat := 0x200

/-- MAX_PROGRAM_BYTES = MEM_SIZE - PROG_BASE (R5, R193). -/
abbrev maxProgramBytes : Nat := 3584

/-- STACK_DEPTH: the call stack holds at most 16 return addresses (R5, R15). -/
abbrev stackDepth : Nat := 16

/-- DISPLAY_W, the default of R5 and R130; UNVERIFIED (the spec's decision D10), log entry 5. -/
abbrev displayW : Nat := 64

/-- DISPLAY_H, the default of R5 and R130; UNVERIFIED (the spec's decision D10), log entry 5. -/
abbrev displayH : Nat := 32

/-- INDEX_MASK_12: off on this hardware (R5, R121); the variant masks the sum of Fx1E to 12 bits. -/
def indexMask12 : Bool := false

/-- The display adapter's grid (R22, R130): row `cy` is a bit vector whose bit `cx` is the pixel in column `cx`. -/
abbrev Framebuffer := Vector (BitVec displayW) displayH

/-- FB_INIT (R5, R22, D17): the framebuffer when the CORE starts, an OPEN parameter. A free value, log entry 6. -/
opaque fbInit : Framebuffer

/-- `Random.byte()` (R24, R113, D16): the byte the environment supplies at draw number `k`, under no law.
A free value, log entry 7. -/
opaque randomByte : (k : Nat) → Byte

/-- `Keyboard.isPressed(key)` (R23, R140, D14): the environment's answer at draw number `k`, for every 8-bit value of
`key`, under no law. A free value, log entry 8. -/
opaque isPressed : (k : Nat) → (key : Byte) → Bool

end Sys2Proof.Config
end

