-- ==== Sys2Proof/Machine/State.lean ====
section
/-! DEFINITION. The state of the CHIP-8 CORE (spec/10_state.md): the tuple of that file's head, the display adapter's
framebuffer (R22) that the collision feedback path reads, and one field of the model's own, `draws`. -/

namespace Sys2Proof.Machine

/-- MEM (R20) as plain data: the bytes that differ from the reset contents, addresses strictly rising (`Memory.wf`).
An unlisted address reads as its reset contents (`initialByte`). -/
abbrev Memory := List Host.Cell

/-- The causes a `step()` can record in STATUS (R160, codes 1 to 4). -/
inductive FaultCause where
  /-- Raised by decode: the word matches no row of R65 (R161). -/
  | badOpcode
  /-- Raised by CALL when SP = 16 (R162). -/
  | stackOverflow
  /-- Raised by RET when SP = 0 (R163). -/
  | stackUnderflow
  /-- Raised by fetch, DRW, Fx33, Fx55 and Fx65: a byte address outside 0 to 4095 (R164). -/
  | addressError
deriving DecidableEq, Repr

/-- STATUS, the run state of the engine (R18). -/
inductive Status where
  /-- `step()` fetches and executes one instruction. -/
  | running
  /-- Entered by Fx0A; `target` receives the key (R143, R144). -/
  | waitingForKey (target : Reg)
  /-- Entered by a fatal error; only `reset()` leaves it (R165, R168). `info` has at most 17 bits. -/
  | faulted (cause : FaultCause) (info : BitVec 17)
deriving DecidableEq, Repr

/-- Faults that stop the MODEL. There are none: the entry of every fault of the spec is described by R165, so it is
taken as a next state whose STATUS is `faulted` (safe; log entry 2), and the spec calls no instruction's effect
undefined. -/
inductive Fault where
deriving DecidableEq, Repr

/-- Refusals of the model. -/
inductive Refusal where
  /-- Raised by an arm of `exec` for an instruction without a meaning (safe); no arm raises it. -/
  | notModelled (mnemonic : String)
deriving DecidableEq, Repr

/-- The state of the machine. -/
structure State where
  /-- V0 to VF (R10, R11) -/
  v : Vector Byte 16
  /-- the Index register I (R13) -/
  index : Word
  /-- the program counter PC (R14) -/
  pc : Word
  /-- the call-stack depth SP, 0 to 16 (R15) -/
  sp : Fin 17
  /-- the call-stack slots STK (R15) -/
  stk : Vector Word 16
  /-- the delay timer DT (R16) -/
  dt : Byte
  /-- the sound timer ST (R17) -/
  st : Byte
  /-- STATUS (R18) -/
  status : Status
  /-- MEM (R20) -/
  mem : Memory
  /-- FB, the display adapter's grid (R22, R130) -/
  fb : Config.Framebuffer
  /-- the model's own: how many values the environment has supplied so far (R23, R24; log entry 20) -/
  draws : Nat
deriving DecidableEq, Repr

/-- What one step or one meaning answers. -/
abbrev Result := Host.Outcome State Fault Refusal

/-- The state after `reset()` at power-on (R25, R191). Memory lists nothing: every byte reads as its reset contents.
The framebuffer is the OPEN parameter FB_INIT (D17). -/
def State.reset : State where
  v := Vector.replicate 16 0
  index := 0
  pc := 0x200
  sp := 0
  stk := Vector.replicate 16 0
  dt := 0
  st := 0
  status := .running
  mem := []
  fb := Config.fbInit
  draws := 0

end Sys2Proof.Machine
end

