-- ==== Sys2Proof/Machine/Memory.lean ====
section
/-! DEFINITION. MEM as a canonical list of cells (spec/20_memory.md, spec/10_state.md R20, R21, R25): what an unlisted
address reads as, reading and writing one byte, writing consecutive bytes, and the canonical form. -/

namespace Sys2Proof.Machine

/-- FONT_GLYPHS * GLYPH_BYTES = 80 bytes at addresses 0 to 79 (R5, R21). -/
abbrev fontBytes : Nat := 80

/-- The glyphs 0 to 7 of FONT (R21). -/
def fontLow : List Byte :=
  [0xF0, 0x90, 0x90, 0x90, 0xF0] ++ [0x20, 0x60, 0x20, 0x20, 0x70] ++ [0xF0, 0x10, 0xF0, 0x80, 0xF0] ++
  [0xF0, 0x10, 0xF0, 0x10, 0xF0] ++ [0x90, 0x90, 0xF0, 0x10, 0x10] ++ [0xF0, 0x80, 0xF0, 0x10, 0xF0] ++
  [0xF0, 0x80, 0xF0, 0x90, 0xF0] ++ [0xF0, 0x10, 0x20, 0x40, 0x40]

/-- The glyphs 8 to F of FONT (R21). -/
def fontHigh : List Byte :=
  [0xF0, 0x90, 0xF0, 0x90, 0xF0] ++ [0xF0, 0x90, 0xF0, 0x10, 0xF0] ++ [0xF0, 0x90, 0xF0, 0x90, 0x90] ++
  [0xE0, 0x90, 0xE0, 0x90, 0xE0] ++ [0xF0, 0x80, 0x80, 0x80, 0xF0] ++ [0xE0, 0x90, 0x90, 0x90, 0xE0] ++
  [0xF0, 0x80, 0xF0, 0x80, 0xF0] ++ [0xF0, 0x80, 0xF0, 0x80, 0x80]

/-- The parameter FONT with the default of R21; UNVERIFIED (the spec's decision D13), log entry 4. -/
def font : List Byte := fontLow ++ fontHigh

/-- What an address reads as until something is written there: its reset contents, FONT at 0 to 79 and 0 elsewhere
(R25, R47). -/
def initialByte (a : Nat) : Byte := if a < fontBytes then font.getD a 0 else 0

/-- The byte at address `a`, 0 to 4095 (R20); the range check is `memRead`'s. -/
def readCell : Memory → Nat → Byte
  | [], a => initialByte a
  | (k, c) :: rest, a => if k = a then c else readCell rest a

/-- MEM[a] <- b: exactly one byte changes (R42). The list stays canonical. -/
def writeCell : Memory → Nat → Byte → Memory
  | [], a, b => if b = initialByte a then [] else [(a, b)]
  | (k, c) :: rest, a, b =>
    if k < a then (k, c) :: writeCell rest a b
    else if b = initialByte a then (if k = a then rest else (k, c) :: rest)
    else (a, b) :: (if k = a then rest else (k, c) :: rest)

/-- MEM[a + j] <- bs[j], ascending, for every j (R124's loop; also Fx33 and `loadProgram`). -/
def writeCells : Memory → Nat → List Byte → Memory
  | m, _, [] => m
  | m, a, b :: bs => writeCells (writeCell m a b) (a + 1) bs

/-- MEM[a], ..., MEM[a + n - 1], ascending (R132, R125). -/
def readCells (m : Memory) (a : Nat) : Nat → List Byte
  | 0 => []
  | n + 1 => readCell m a :: readCells m (a + 1) n

/-- Every listed address is at least `lo`, the addresses rise strictly and stay below 4096, and no cell holds what its
address reads as when unlisted. -/
def cellsFrom : Nat → Memory → Bool
  | _, [] => true
  | lo, (k, c) :: rest =>
    decide (lo ≤ k) && decide (k < Config.memSize) && decide (c ≠ initialByte k) && cellsFrom (k + 1) rest

/-- The canonical form: equal memories are equal lists. -/
def Memory.wf (m : Memory) : Bool := cellsFrom 0 m

end Sys2Proof.Machine
end

