-- ==== Sys2Proof/Machine/Ops.lean ====
section
/-! DEFINITION. The named operations over registers, memory, the call stack and STATUS that the meanings share
(spec/00_scope.md R8, spec/10_state.md, spec/20_memory.md, spec/60_exceptions.md R165). -/

namespace Sys2Proof.Machine

/-! ## One home for every piece of state -/

/-- `V[r]` (R8, R10). -/
def State.getV (s : State) (r : Reg) : Byte := s.v[r]

/-- `V[r] <- b` (R8, R10). -/
def State.setV (s : State) (r : Reg) (b : Byte) : State := { s with v := s.v.set r b }

/-- The whole register file at once, for Fx65 (R125). -/
def State.setRegs (s : State) (v : Vector Byte 16) : State := { s with v := v }

/-- `I <- w` (R13). -/
def State.setIndex (s : State) (w : Word) : State := { s with index := w }

/-- `PC <- w` (R14). -/
def State.setPc (s : State) (w : Word) : State := { s with pc := w }

/-- The call stack's depth and slots (R15). -/
def State.setStack (s : State) (sp : Fin 17) (stk : Vector Word 16) : State := { s with sp := sp, stk := stk }

/-- `DT <- b` (R16). -/
def State.setDt (s : State) (b : Byte) : State := { s with dt := b }

/-- `ST <- b` (R17). -/
def State.setSt (s : State) (b : Byte) : State := { s with st := b }

/-- `STATUS <- q` (R18). -/
def State.setStatus (s : State) (q : Status) : State := { s with status := q }

/-- MEM after a write (R42). -/
def State.setMem (s : State) (m : Memory) : State := { s with mem := m }

/-- FB after a call of the display adapter (R130). -/
def State.setFb (s : State) (fb : Config.Framebuffer) : State := { s with fb := fb }

/-- The environment has supplied one more value (R23, R24; log entry 20). -/
def State.nextDraw (s : State) : State := { s with draws := s.draws + 1 }

/-- MEM[a] as the model reads it. -/
def State.readByte (s : State) (a : Nat) : Byte := readCell s.mem a

/-! ## Outputs (R17, R145, R176) -/

/-- `sound_on = (ST > 0)` (R17). -/
def State.soundOn (s : State) : Bool := decide (0 < s.st.toNat)

/-- `wait_key`: STATUS is WaitingForKey (R145). -/
def State.waitKey (s : State) : Bool :=
  match s.status with
  | .waitingForKey _ => true
  | .running => false
  | .faulted _ _ => false

/-! ## Faults (R160, R165) and the return from one (R169, R190) -/

/-- The numeric code of a cause (R160, D3). Code 5, RomTooLarge, is `LoadError.code`. -/
def FaultCause.code : FaultCause → Nat
  | .badOpcode => 1
  | .stackOverflow => 2
  | .stackUnderflow => 3
  | .addressError => 4

/-- Fault entry, `raise F(info)` (R165): every write of the step is discarded, so `s` is the state before the step, and
only STATUS changes. PC keeps the address of the faulting instruction; there is no handler to go to. -/
def takeFault (cause : FaultCause) (info : Nat) (s : State) : State :=
  s.setStatus (.faulted cause (BitVec.ofNat 17 info))

/-- The `reset()` event (R190), the only return from a fault (R169): the state of R25, with the framebuffer kept (it is
the adapter's, R22) and the environment's draws going on. -/
def hostReset (s : State) : State := { State.reset with fb := s.fb, draws := s.draws }

/-! ## The program counter (R8, R14) -/

/-- `npc = PC + 2`, computed at fetch (R8). -/
def State.npc (s : State) : Word := s.pc + 2

/-- `PC <- npc`. -/
def State.advance (s : State) : State := s.setPc s.npc

/-- `if c: PC <- npc + 2 else: PC <- npc` (R83 to R86, R141, R142). -/
def State.skipIf (c : Bool) (s : State) : State := s.setPc (if c then s.npc + 2 else s.npc)

/-! ## Memory (R41, R42, R43, R126) -/

/-- `MemRead(addr, 1)` (R41): the byte, or the out-of-range address. -/
def memRead (s : State) (a : Nat) : Except Nat Byte :=
  if a < Config.memSize then .ok (s.readByte a) else .error a

/-- `MemRead(PC, 2)`, the instruction fetch (R41, R44, R60): high byte first, or the out-of-range address. -/
def fetchWord (s : State) : Except Nat Word :=
  match memRead s s.pc.toNat with
  | .error a => .error a
  | .ok hi =>
    match memRead s (s.pc.toNat + 1) with
    | .error a => .error a
    | .ok lo => .ok (wordOfBytes hi lo)

/-- Whether the `n` bytes from `base` are all in 0 to 4095; the sum is not wrapped (R43). No byte is always in range
(R132, n = 0). -/
def blockInRange (base n : Nat) : Bool := decide (n = 0 ∨ base + n ≤ Config.memSize)

/-- The range check a data access through I makes before its first write or adapter call (R126, R165): `t` when the
`n` bytes at I are in range, otherwise AddressError(max(I, 4096)) and nothing else. -/
def withBlock (n : Nat) (s : State) (t : State) : Result :=
  if blockInRange s.index.toNat n then .next t
  else .next (takeFault .addressError (max s.index.toNat Config.memSize) s)

/-- The bytes at I, ..., I + n - 1 (R126). -/
def State.bytesAtIndex (s : State) (n : Nat) : List Byte := readCells s.mem s.index.toNat n

/-- MEM[I + j] <- bs[j] for every j, ascending (R123, R124). -/
def State.storeAtIndex (s : State) (bs : List Byte) : State := s.setMem (writeCells s.mem s.index.toNat bs)

/-! ## The call stack (R15) -/

/-- `push(a)`: none when SP = 16 (StackOverflow). -/
def push (a : Word) (s : State) : Option State :=
  if h : s.sp.val < Config.stackDepth then
    some (s.setStack ⟨s.sp.val + 1, Nat.succ_lt_succ h⟩ (s.stk.set s.sp.val a h))
  else none

/-- `pop()`: none when SP = 0 (StackUnderflow), else the address and the state with SP one less. -/
def pop (s : State) : Option (Word × State) :=
  if h : 0 < s.sp.val then
    some (s.stk[s.sp.val - 1]'(by have := s.sp.isLt; omega),
      s.setStack ⟨s.sp.val - 1, by have := s.sp.isLt; omega⟩ s.stk)
  else none

end Sys2Proof.Machine
end

