-- ==== Sys2Proof/Machine/Operands.lean ====
section
/-! DEFINITION. Operand forms (spec/30_encoding.md R64): immediates are zero-extended as they stand, and the implicit
operands are I, V[0], the timers, the stack and memory at I. -/

namespace Sys2Proof.Machine

/-- nnn as a 16-bit address value (R64). -/
def addrWord (nnn : Addr) : Word := nnn.setWidth 16

/-- `nnn + V[0]`, an ordinary sum that fits 16 bits (R87). -/
def jumpTarget (nnn : Addr) (v0 : Byte) : Word := BitVec.ofNat 16 (nnn.toNat + v0.toNat)

/-- `(I + V[x]) mod 65536`, or mod 4096 in the variant INDEX_MASK_12 that this hardware has off (R121). -/
def indexSum (i : Word) (b : Byte) : Word :=
  if Config.indexMask12 then BitVec.ofNat 16 ((i.toNat + b.toNat) % 4096) else BitVec.ofNat 16 (i.toNat + b.toNat)

/-- `V[x] * 5`, the address of glyph V[x]; the whole 8-bit value is multiplied (R122). -/
def glyphAddress (b : Byte) : Word := BitVec.ofNat 16 (b.toNat * 5)

/-- The three decimal digits of a byte, hundreds first (R123, R44). -/
def bcdDigits (b : Byte) : List Byte :=
  [BitVec.ofNat 8 (b.toNat / 100), BitVec.ofNat 8 (b.toNat / 10 % 10), BitVec.ofNat 8 (b.toNat % 10)]

/-- V[0] to V[x], ascending: x + 1 registers (R124). -/
def State.regsUpTo (s : State) (x : Reg) : List Byte := s.v.toList.take (x.val + 1)

/-- `V[r] <- MEM[I + r]` for r = 0 to x; the registers above x keep their values (R125). -/
def State.loadRegsUpTo (s : State) (x : Reg) : State :=
  s.setRegs (Vector.ofFn fun r : Fin 16 => if r.val ≤ x.val then s.readByte (s.index.toNat + r.val) else s.getV r)

end Sys2Proof.Machine
end

