-- ==== Sys2Proof/Machine/Control.lean ====
section
/-! DEFINITION. Control transfer (spec/40_control.md): RET, JP, CALL, the four register skips, JP V0. None writes a
general register (R88); targets are not checked when the transfer executes (R88). -/

namespace Sys2Proof.Machine

/-- 00EE RET (R80): `PC <- pop()`, or StackUnderflow(PC) when SP = 0. -/
def execRet (s : State) : Result :=
  match pop s with
  | some (a, t) => .next (t.setPc a)
  | none => .next (takeFault .stackUnderflow s.pc.toNat s)

/-- 1nnn JP addr (R81): `PC <- nnn`. -/
def execJp (nnn : Addr) (s : State) : Result := .next (s.setPc (addrWord nnn))

/-- 2nnn CALL addr (R82): `push(npc); PC <- nnn`, or StackOverflow(PC) when SP = 16. -/
def execCall (nnn : Addr) (s : State) : Result :=
  match push s.npc s with
  | some t => .next (t.setPc (addrWord nnn))
  | none => .next (takeFault .stackOverflow s.pc.toNat s)

/-- 3xnn SE Vx, nn (R83). -/
def execSeImm (x : Reg) (nn : Byte) (s : State) : Result := .next (s.skipIf (s.getV x == nn))

/-- 4xnn SNE Vx, nn (R84). -/
def execSneImm (x : Reg) (nn : Byte) (s : State) : Result := .next (s.skipIf (s.getV x != nn))

/-- 5xy0 SE Vx, Vy (R85). -/
def execSeReg (x y : Reg) (s : State) : Result := .next (s.skipIf (s.getV x == s.getV y))

/-- 9xy0 SNE Vx, Vy (R86). -/
def execSneReg (x y : Reg) (s : State) : Result := .next (s.skipIf (s.getV x != s.getV y))

/-- Bnnn JP V0, addr (R87): `PC <- nnn + V[0]`, always register 0. -/
def execJpV0 (nnn : Addr) (s : State) : Result := .next (s.setPc (jumpTarget nnn (s.getV 0)))

end Sys2Proof.Machine
end

