-- ==== Sys2Proof/Machine/Adapters.lean ====
section
/-! DEFINITION. The external collaborators as the CORE sees them: the display adapter's contract over its framebuffer
(spec/43_display.md R130), the sprite of DRW as the list of `setPixel` calls it makes (R132), and the values the
environment supplies (spec/44_keyboard.md R140, spec/41_load_alu.md R113). -/

namespace Sys2Proof.Machine

open Sys2Proof.Config (Framebuffer displayW displayH)

/-- FB[py mod DISPLAY_H][px mod DISPLAY_W] (R130). -/
def pixelAt (fb : Framebuffer) (px py : Nat) : Bool :=
  (fb[py % displayH]'(Nat.mod_lt _ (by decide))).getLsbD (px % displayW)

/-- FB after the pixel at (px mod DISPLAY_W, py mod DISPLAY_H) is toggled (R130). -/
def togglePixel (fb : Framebuffer) (px py : Nat) : Framebuffer :=
  fb.set (py % displayH)
    ((fb[py % displayH]'(Nat.mod_lt _ (by decide))) ^^^ BitVec.twoPow displayW (px % displayW))
    (Nat.mod_lt _ (by decide))

/-- `Display.setPixel(px, py)` (R130): the toggled grid, and true exactly when the pixel became unset. -/
def setPixel (fb : Framebuffer) (px py : Nat) : Framebuffer × Bool := (togglePixel fb px py, pixelAt fb px py)

/-- `Display.clear()` (R130): every pixel is 0. -/
def clearDisplay : Framebuffer := Vector.replicate displayH 0

/-- The calls row `r` of a sprite makes: columns ascending, bit 7 - c of the byte is column c, only set bits call, each
coordinate reduced from its unbounded sum (R132; bit order D11, sums D12, log entries 9 and 10). -/
def rowCalls (vx vy r : Nat) (row : Byte) : List (Nat × Nat) :=
  ((List.range 8).filter fun c => row.getLsbD (7 - c)).map fun c => ((vx + c) % displayW, (vy + r) % displayH)

/-- The calls of a sprite whose rows start at row number `r`, rows ascending (R132). -/
def spriteCallsFrom (vx vy : Nat) : Nat → List Byte → List (Nat × Nat)
  | _, [] => []
  | r, row :: rows => rowCalls vx vy r row ++ spriteCallsFrom vx vy (r + 1) rows

/-- The `setPixel` calls of one DRW in order (R132). -/
def spriteCalls (vx vy : Byte) (rows : List Byte) : List (Nat × Nat) := spriteCallsFrom vx.toNat vy.toNat 0 rows

/-- Makes the calls in order: the grid afterwards, and whether at least one call returned true (R132). -/
def drawCalls (fb : Framebuffer) : List (Nat × Nat) → Framebuffer × Bool
  | [] => (fb, false)
  | p :: ps =>
    ((drawCalls (setPixel fb p.1 p.2).1 ps).1, (setPixel fb p.1 p.2).2 || (drawCalls (setPixel fb p.1 p.2).1 ps).2)

/-- `Random.byte()`: the environment's next value, under no law (R24, R113). -/
def State.randomByte (s : State) : Byte := Config.randomByte s.draws

/-- `Keyboard.isPressed(k)`: the environment's answer at this moment, for the whole 8-bit value (R140). -/
def State.keyAnswer (s : State) (k : Byte) : Bool := Config.isPressed s.draws k

end Sys2Proof.Machine
end

