-- ==== Sys2Proof/Machine/Flags.lean ====
section
/-! DEFINITION. The results and the VF flags of the arithmetic instructions (spec/41_load_alu.md R100, R107 to R111),
and the order in which flag and result are written (spec/30_encoding.md R61). Operands are taken as unsigned
integers, the exact result is narrowed at the end. -/

namespace Sys2Proof.Machine

/-- Every flag value written to VF is the byte 0x00 or 0x01 (R100). -/
def flagByte (c : Bool) : Byte := if c then 1 else 0

/-- `(a + b) mod 256` (R100). -/
def addResult (a b : Byte) : Byte := BitVec.ofNat 8 (a.toNat + b.toNat)

/-- The carry: 1 exactly when `a + b > 255` (R107). -/
def addFlag (a b : Byte) : Bool := decide (a.toNat + b.toNat > 255)

/-- `(a - b) mod 256`, minuend first (R100). -/
def subResult (a b : Byte) : Byte := BitVec.ofInt 8 ((a.toNat : Int) - (b.toNat : Int))

/-- 1 exactly when minuend > subtrahend, strictly (R100, R108, R110). -/
def subFlag (a b : Byte) : Bool := decide (a.toNat > b.toNat)

/-- `a >> 1` (R109). -/
def shrResult (a : Byte) : Byte := BitVec.ofNat 8 (a.toNat / 2)

/-- The bit shifted out, bit 0 (R109). -/
def shrFlag (a : Byte) : Bool := a.getLsbD 0

/-- `(a << 1) mod 256` (R111). -/
def shlResult (a : Byte) : Byte := BitVec.ofNat 8 (2 * a.toNat)

/-- The bit shifted out, bit 7 (R111). -/
def shlFlag (a : Byte) : Bool := a.getLsbD 7

/-- `V[15] <- flag; V[x] <- result`, in this order, both from values sampled before (R61; UNVERIFIED, the spec's
decision D6, log entry 11): when x = 15 the result stays. -/
def State.setFlagThenResult (s : State) (x : Reg) (flag : Bool) (result : Byte) : State :=
  (s.setV VF (flagByte flag)).setV x result

end Sys2Proof.Machine
end

