-- ==== Sys2Proof/Machine/Display.lean ====
section
/-! DEFINITION. CLS and DRW (spec/43_display.md R131, R132). -/

namespace Sys2Proof.Machine

/-- 00E0 CLS (R131): `Display.clear()`; no CORE state other than PC changes. -/
def execCls (s : State) : Result := .next (s.setFb clearDisplay).advance

/-- What DRW's calls leave: the grid and the collision (R132), with coordinates and sprite bytes sampled from `s`. -/
def State.drawn (s : State) (x y : Reg) (n : Nat) : Config.Framebuffer × Bool :=
  drawCalls s.fb (spriteCalls (s.getV x) (s.getV y) (s.bytesAtIndex n))

/-- Dxyn DRW Vx, Vy, n (R132): the sprite's set bits toggle pixels and VF is the collision, or AddressError before the
first call. -/
def execDrw (x y : Reg) (n : Nat) (s : State) : Result :=
  withBlock n s ((s.setFb (s.drawn x y n).1).setV VF (flagByte (s.drawn x y n).2)).advance

end Sys2Proof.Machine
end

