-- ==== Sys2Proof/Machine/IndexMemory.lean ====
section
/-! DEFINITION. Index register and memory (spec/42_index_memory.md). None changes I except Annn, Fx1E and Fx29 (R126),
none writes VF as a flag, and each ends with `PC <- npc` when it does not fault. -/

namespace Sys2Proof.Machine

/-- Annn LD I, addr (R120). -/
def execLdI (nnn : Addr) (s : State) : Result := .next (s.setIndex (addrWord nnn)).advance

/-- Fx1E ADD I, Vx (R121). -/
def execAddIVx (x : Reg) (s : State) : Result := .next (s.setIndex (indexSum s.index (s.getV x))).advance

/-- Fx29 LD F, Vx (R122). -/
def execLdFVx (x : Reg) (s : State) : Result := .next (s.setIndex (glyphAddress (s.getV x))).advance

/-- Fx33 LD B, Vx (R123): the three digits at I, I + 1, I + 2, or AddressError. -/
def execLdBVx (x : Reg) (s : State) : Result := withBlock 3 s (s.storeAtIndex (bcdDigits (s.getV x))).advance

/-- Fx55 LD [I], Vx (R124): V0 to Vx at I to I + x, or AddressError. -/
def execLdMemVx (x : Reg) (s : State) : Result := withBlock (x.val + 1) s (s.storeAtIndex (s.regsUpTo x)).advance

/-- Fx65 LD Vx, [I] (R125): V0 to Vx from I to I + x, or AddressError. -/
def execLdVxMem (x : Reg) (s : State) : Result := withBlock (x.val + 1) s (s.loadRegsUpTo x).advance

end Sys2Proof.Machine
end

