-- ==== Sys2Proof/Machine/Keyboard.lean ====
section
/-! DEFINITION. SKP, SKNP and LD Vx, K (spec/44_keyboard.md R141, R142, R144); the other half of LD Vx, K, the event
`keyPress`, is in Sys2Proof/Machine/Events.lean. -/

namespace Sys2Proof.Machine

/-- Ex9E SKP Vx (R141): skips when the environment answers that key V[x] is down. -/
def execSkp (x : Reg) (s : State) : Result := .next (s.skipIf (s.keyAnswer (s.getV x))).nextDraw

/-- ExA1 SKNP Vx (R142): skips when the environment answers that key V[x] is not down. -/
def execSknp (x : Reg) (s : State) : Result := .next (s.skipIf (!s.keyAnswer (s.getV x))).nextDraw

/-- Fx0A LD Vx, K (R144): `STATUS <- WaitingForKey(x); PC <- npc`; V[x] is written later, by `keyPress`. -/
def execLdVxK (x : Reg) (s : State) : Result := .next (s.setStatus (.waitingForKey x)).advance

end Sys2Proof.Machine
end

