-- ==== Sys2Proof/Machine/LoadAlu.lean ====
section
/-! DEFINITION. Register load, arithmetic, logic, shift and random (spec/41_load_alu.md). Every instruction here ends
with `PC <- npc`, raises no fault and touches no memory. -/

namespace Sys2Proof.Machine

/-- 6xnn LD Vx, nn (R101). -/
def execLdImm (x : Reg) (nn : Byte) (s : State) : Result := .next (s.setV x nn).advance

/-- 7xnn ADD Vx, nn (R102): no flag. -/
def execAddImm (x : Reg) (nn : Byte) (s : State) : Result := .next (s.setV x (addResult (s.getV x) nn)).advance

/-- 8xy0 LD Vx, Vy (R103). -/
def execLdReg (x y : Reg) (s : State) : Result := .next (s.setV x (s.getV y)).advance

/-- 8xy1 OR Vx, Vy (R104): VF is not written. -/
def execOr (x y : Reg) (s : State) : Result := .next (s.setV x (s.getV x ||| s.getV y)).advance

/-- 8xy2 AND Vx, Vy (R105): VF is not written. -/
def execAnd (x y : Reg) (s : State) : Result := .next (s.setV x (s.getV x &&& s.getV y)).advance

/-- 8xy3 XOR Vx, Vy (R106): VF is not written. -/
def execXor (x y : Reg) (s : State) : Result := .next (s.setV x (s.getV x ^^^ s.getV y)).advance

/-- 8xy4 ADD Vx, Vy (R107): VF = carry. -/
def execAddReg (x y : Reg) (s : State) : Result :=
  .next (s.setFlagThenResult x (addFlag (s.getV x) (s.getV y)) (addResult (s.getV x) (s.getV y))).advance

/-- 8xy5 SUB Vx, Vy (R108): VF = 1 iff Vx > Vy. -/
def execSubReg (x y : Reg) (s : State) : Result :=
  .next (s.setFlagThenResult x (subFlag (s.getV x) (s.getV y)) (subResult (s.getV x) (s.getV y))).advance

/-- 8xy6 SHR Vx (R109): Vy is neither read nor written. -/
def execShr (x : Reg) (s : State) : Result :=
  .next (s.setFlagThenResult x (shrFlag (s.getV x)) (shrResult (s.getV x))).advance

/-- 8xy7 SUBN Vx, Vy (R110): VF = 1 iff Vy > Vx, the result is Vy - Vx. -/
def execSubnReg (x y : Reg) (s : State) : Result :=
  .next (s.setFlagThenResult x (subFlag (s.getV y) (s.getV x)) (subResult (s.getV y) (s.getV x))).advance

/-- 8xyE SHL Vx (R111): Vy is neither read nor written. -/
def execShl (x : Reg) (s : State) : Result :=
  .next (s.setFlagThenResult x (shlFlag (s.getV x)) (shlResult (s.getV x))).advance

/-- Cxnn RND Vx, nn (R113): a fresh random byte, masked with nn. -/
def execRnd (x : Reg) (nn : Byte) (s : State) : Result := .next (s.setV x (s.randomByte &&& nn)).nextDraw.advance

end Sys2Proof.Machine
end

