-- ==== Sys2Proof/Machine/Timers.lean ====
section
/-! DEFINITION. The timer instructions (spec/45_timers.md R150 to R152); the decrement is the event `tickTimers` of
Sys2Proof/Machine/Events.lean. -/

namespace Sys2Proof.Machine

/-- Fx07 LD Vx, DT (R150). -/
def execLdVxDT (x : Reg) (s : State) : Result := .next (s.setV x s.dt).advance

/-- Fx15 LD DT, Vx (R151). -/
def execLdDTVx (x : Reg) (s : State) : Result := .next (s.setDt (s.getV x)).advance

/-- Fx18 LD ST, Vx (R152). -/
def execLdSTVx (x : Reg) (s : State) : Result := .next (s.setSt (s.getV x)).advance

end Sys2Proof.Machine
end

