-- ==== Sys2Proof/Machine/Cycle.lean ====
section
/-! DEFINITION. One `step()` event (spec/30_encoding.md R60, spec/60_exceptions.md R167, R168), and placing an
instruction word where the next step fetches it. -/

namespace Sys2Proof.Machine

/-- A `step()` in STATUS Running: fetch, decode, execute, in the priority order of R167. -/
def fetchDecodeExecute (s : State) : Result :=
  match fetchWord s with
  | .error a => .next (takeFault .addressError a s)
  | .ok w =>
    match decodeWord w with
    | .error _ => .next (takeFault .badOpcode w.toNat s)
    | .ok i => exec i s

/-- `step()` (R60): nothing changes unless STATUS is Running (R168, R179). -/
def stepEvent (s : State) : Result :=
  match s.status with
  | .running => fetchDecodeExecute s
  | .waitingForKey _ => .next s
  | .faulted _ _ => .next s

/-- Where an instruction is placed: PC when a word can be fetched there, else 0x200 (log entry 21). -/
def placeAddress (s : State) : Word := if s.pc.toNat + 1 < Config.memSize then s.pc else BitVec.ofNat 16 Config.progBase

/-- `s` with the word `w` where the next step fetches, in memory order, and the engine Running: what the fetch needs
and nothing else (log entry 21). -/
def placeWord (s : State) (w : Word) : State :=
  ((s.setMem (writeCells s.mem (placeAddress s).toNat (bytesOfWord w))).setPc (placeAddress s)).setStatus .running

end Sys2Proof.Machine
end

