-- ==== Sys2Proof/Machine/Step.lean ====
section
/-! DEFINITION. The step of the machine: the `step()` event of spec/30_encoding.md R60. -/

namespace Sys2Proof.Machine

/-- One `step()` event (R60). -/
def step (s : State) : Host.Outcome State Fault Refusal := Sys2Proof.Machine.stepEvent s

/-- `s` with the opcode-table word `w` stored where `step` fetches its next instruction (log entry 21). -/
def State.withFetchWord (s : State) (nbits w : Nat) : State := placeWord s (tableWord nbits w)

end Sys2Proof.Machine
end

