-- ==== Sys2Proof/Machine/Events.lean ====
section
/-! DEFINITION. The inbound events other than `step()` (spec/00_scope.md R6): `tickTimers`, `keyPress`, `loadProgram`
(`reset` is `hostReset`, beside fault entry), and any sequence of events. The CORE fixes no order of events (R172), so a
claim about the machine in its environment is one about every list of events (log entry 1). -/

namespace Sys2Proof.Machine

/-- `if t > 0: t <- t - 1` (R153). -/
def countDown (t : Byte) : Byte := if 0 < t.toNat then t - 1 else t

/-- `tickTimers()` (R153): both timers count down, floored at 0, in every STATUS (R155). -/
def tickTimers (s : State) : State := (s.setDt (countDown s.dt)).setSt (countDown s.st)

/-- `keyPress(k)` (R143): ends WaitingForKey(r) with V[r] = k, and does nothing in any other STATUS. -/
def keyPress (k : Key) (s : State) : State :=
  match s.status with
  | .waitingForKey r => (s.setV r (BitVec.ofNat 8 k.val)).setStatus .running
  | .running => s
  | .faulted _ _ => s

/-- The error `loadProgram` reports to the host; it is never stored in STATUS (R166). -/
inductive LoadError where
  /-- The program has more than 3584 bytes; `len` is its length (R160, R193). -/
  | romTooLarge (len : Nat)
deriving DecidableEq, Repr

/-- Code 5 of R160. -/
def LoadError.code : LoadError → Nat
  | .romTooLarge _ => 5

/-- What `loadProgram(bytes)` reports (R166, R193). -/
def loadReport (bytes : List Byte) : Option LoadError :=
  if bytes.length ≤ Config.maxProgramBytes then none else some (.romTooLarge bytes.length)

/-- `loadProgram(bytes)` (R193): writes the bytes from 0x200 and sets PC to 0x200, in every STATUS; a program that is too
large changes nothing. -/
def loadProgram (bytes : List Byte) (s : State) : State :=
  match loadReport bytes with
  | none => (s.setMem (writeCells s.mem Config.progBase bytes)).setPc (BitVec.ofNat 16 Config.progBase)
  | some _ => s

/-- The five events of R6. No other inbound event exists. -/
inductive Event where
  | reset
  | loadProgram (bytes : List Byte)
  | step
  | tickTimers
  | keyPress (k : Key)
deriving DecidableEq, Repr

/-- One event: one atomic transition of the whole state (R6, R46). -/
def handle (e : Event) (s : State) : Result :=
  match e with
  | .reset => .next (hostReset s)
  | .loadProgram bytes => .next (Sys2Proof.Machine.loadProgram bytes s)
  | .step => Sys2Proof.Machine.step s
  | .tickTimers => .next (Sys2Proof.Machine.tickTimers s)
  | .keyPress k => .next (Sys2Proof.Machine.keyPress k s)

/-- A sequence of events in the order the host issues them (R172). -/
def runEvents : List Event → State → Result
  | [], s => .next s
  | e :: es, s =>
    match handle e s with
    | .next t => runEvents es t
    | .fault f => .fault f
    | .refused r => .refused r

end Sys2Proof.Machine
end

