-- ==== Sys2Proof/Safety.lean ====
section
/-! DEFINITION. What counts as a safe run, the invariant of every reachable state (spec/10_state.md R26), and the words
claims are stated in: which registers an instruction reads and writes (R12), which faults it can raise (R180), which
words are illegal (R66), and which pixels a sprite covers (R133). They are written from the spec's tables, not from the
meanings. -/

namespace Sys2Proof.Machine

/-! ## Runs -/

/-- The engine has stopped on a fatal error (R18); never a successful end of a program (R168, R204). -/
def State.isFaulted (s : State) : Bool :=
  match s.status with
  | .faulted _ _ => true
  | .running => false
  | .waitingForKey _ => false

/-- A safe run: after every prefix of the events the engine has not faulted. -/
def safeRun (es : List Event) (s : State) : Prop :=
  ∀ n t, runEvents (es.take n) s = .next t → t.isFaulted = false

/-! ## The invariant of R26 -/

/-- (c) PC is in 0 to 0x10FE. -/
def State.pcInRange (s : State) : Prop := s.pc.toNat ≤ 0x10FE

/-- (e) Every meaningful stack slot holds a value in 2 to 4096. -/
def State.stackInRange (s : State) : Prop :=
  ∀ k : Fin 16, k.val < s.sp.val → 2 ≤ s.stk[k].toNat ∧ s.stk[k].toNat ≤ 4096

/-- R26 (c) and (e), and the canonical form of memory (log entry 23). The widths of R26 (a), (b), (d) and (f) are the
types of the fields. -/
structure Inv (s : State) : Prop where
  memory : s.mem.wf = true
  pc : s.pcInRange
  stack : s.stackInRange

/-! ## Frames -/

/-- Every byte of memory reads as before. -/
def sameMemory (s t : State) : Prop := ∀ a : Nat, t.readByte a = s.readByte a

/-- Every general register but `x` holds what it held. -/
def sameRegsBut (x : Reg) (s t : State) : Prop := ∀ r : Reg, r ≠ x → t.getV r = s.getV r

/-- Every general register holds what it held. -/
def sameRegs (s t : State) : Prop := ∀ r : Reg, t.getV r = s.getV r

/-- The program counter is `npc` (R8, R14). -/
def advanced (s t : State) : Prop := t.pc = s.pc + 2

/-- Nothing but V and PC differs: I, the stack, the timers, STATUS, memory, the framebuffer and the draws are as
before. -/
def onlyRegsAndPc (s t : State) : Prop := t = { s with v := t.v, pc := t.pc } ∧ sameMemory s t

/-- An instruction whose whole effect is `V[x] <- b` and `PC <- npc`. -/
def writesOneReg (x : Reg) (b : Byte) (s t : State) : Prop :=
  t.getV x = b ∧ sameRegsBut x s t ∧ advanced s t ∧ onlyRegsAndPc s t

/-- An instruction whose whole effect is a result in V[x], a flag in VF (lost when x = 15) and `PC <- npc`. -/
def writesFlagAndReg (x : Reg) (flag : Prop) (b : Byte) (s t : State) : Prop :=
  t.getV x = b ∧ (x ≠ 15 → (flag → t.getV 15 = 1) ∧ (¬ flag → t.getV 15 = 0)) ∧
  (∀ r : Reg, r ≠ x → r ≠ 15 → t.getV r = s.getV r) ∧ advanced s t ∧ onlyRegsAndPc s t

/-- An instruction whose whole effect is the new program counter. -/
def onlyPc (s t : State) : Prop := t = { s with pc := t.pc } ∧ sameRegs s t ∧ sameMemory s t

/-- A fault with cause `c` and info `n`, precise: nothing but STATUS differs (R165). -/
def faultsWith (c : FaultCause) (n : Nat) (s t : State) : Prop :=
  t.status = .faulted c (BitVec.ofNat 17 n) ∧ t = { s with status := t.status }

/-! ## Register access (R12) -/

/-- The rows "read" of R12. -/
def readsV : Instr → Reg → Bool
  | .seImm x _, r | .sneImm x _, r | .addImm x _, r => r == x
  | .seReg x y, r | .sneReg x y, r => r == x || r == y
  | .ldReg _ y, r => r == y
  | .orReg x y, r | .andReg x y, r | .xorReg x y, r => r == x || r == y
  | .addReg x y, r | .subReg x y, r | .subnReg x y, r => r == x || r == y
  | .shr x _, r | .shl x _, r => r == x
  | .drw x y _, r => r == x || r == y
  | .skp x, r | .sknp x, r => r == x
  | .ldDTVx x, r | .ldSTVx x, r | .addIVx x, r | .ldFVx x, r | .ldBVx x, r => r == x
  | .jpV0 _, r => r == 0
  | .ldMemVx x, r => decide (r ≤ x)
  | .cls, _ | .ret, _ | .jp _, _ | .call _, _ | .ldImm _ _, _ | .ldI _, _ | .rnd _ _, _ => false
  | .ldVxDT _, _ | .ldVxK _, _ | .ldVxMem _, _ => false

/-- The rows "write" of R12; what `keyPress` writes later is no write of Fx0A. -/
def writesV : Instr → Reg → Bool
  | .ldImm x _, r | .addImm x _, r | .rnd x _, r | .ldVxDT x, r => r == x
  | .ldReg x _, r | .orReg x _, r | .andReg x _, r | .xorReg x _, r => r == x
  | .addReg x _, r | .subReg x _, r | .shr x _, r | .subnReg x _, r | .shl x _, r => r == x || r == 15
  | .drw _ _ _, r => r == 15
  | .ldVxMem x, r => decide (r ≤ x)
  | .cls, _ | .ret, _ | .jp _, _ | .call _, _ | .seImm _ _, _ | .sneImm _ _, _ => false
  | .seReg _ _, _ | .sneReg _ _, _ | .ldI _, _ | .jpV0 _, _ => false
  | .skp _, _ | .sknp _, _ | .ldVxK _, _ | .ldDTVx _, _ | .ldSTVx _, _ => false
  | .addIVx _, _ | .ldFVx _, _ | .ldBVx _, _ | .ldMemVx _, _ => false

/-- The six flag-writing instructions of R11, with a destination other than VF. -/
def writesFlagToVF : Instr → Bool
  | .addReg x _ | .subReg x _ | .shr x _ | .subnReg x _ | .shl x _ => x != 15
  | .drw _ _ _ => true
  | .cls | .ret | .jp _ | .call _ | .seImm _ _ | .sneImm _ _ | .seReg _ _ | .sneReg _ _ => false
  | .ldImm _ _ | .addImm _ _ | .ldReg _ _ | .orReg _ _ | .andReg _ _ | .xorReg _ _ => false
  | .ldI _ | .jpV0 _ | .rnd _ _ | .skp _ | .sknp _ | .ldVxDT _ | .ldVxK _ | .ldDTVx _ | .ldSTVx _ => false
  | .addIVx _ | .ldFVx _ | .ldBVx _ | .ldMemVx _ | .ldVxMem _ => false

/-! ## Faults by instruction (R180) -/

/-- The execution fault an instruction raises in `s`, with the info of R160, or none (R180). -/
def faultOf (i : Instr) (s : State) : Option (FaultCause × Nat) :=
  match i with
  | .ret => if s.sp.val = 0 then some (.stackUnderflow, s.pc.toNat) else none
  | .call _ => if s.sp.val = 16 then some (.stackOverflow, s.pc.toNat) else none
  | .drw _ _ n =>
    if 0 < n ∧ s.index.toNat + n - 1 > 4095 then some (.addressError, max s.index.toNat 4096) else none
  | .ldBVx _ => if s.index.toNat + 2 > 4095 then some (.addressError, max s.index.toNat 4096) else none
  | .ldMemVx x => if s.index.toNat + x.val > 4095 then some (.addressError, max s.index.toNat 4096) else none
  | .ldVxMem x => if s.index.toNat + x.val > 4095 then some (.addressError, max s.index.toNat 4096) else none
  | .cls | .jp _ | .seImm _ _ | .sneImm _ _ | .seReg _ _ | .sneReg _ _ => none
  | .ldImm _ _ | .addImm _ _ | .ldReg _ _ | .orReg _ _ | .andReg _ _ | .xorReg _ _ => none
  | .addReg _ _ | .subReg _ _ | .shr _ _ | .subnReg _ _ | .shl _ _ => none
  | .ldI _ | .jpV0 _ | .rnd _ _ | .skp _ | .sknp _ | .ldVxDT _ | .ldVxK _ | .ldDTVx _ | .ldSTVx _ => none
  | .addIVx _ | .ldFVx _ => none

/-- The STATUS an instruction that does not fault leaves: WaitingForKey(x) for Fx0A, else as it was (R18, R144). -/
def statusUnlessFaulted (i : Instr) (s : State) : Status :=
  match i with
  | .ldVxK x => .waitingForKey x
  | .cls | .ret | .jp _ | .call _ | .seImm _ _ | .sneImm _ _ | .seReg _ _ | .sneReg _ _ => s.status
  | .ldImm _ _ | .addImm _ _ | .ldReg _ _ | .orReg _ _ | .andReg _ _ | .xorReg _ _ => s.status
  | .addReg _ _ | .subReg _ _ | .shr _ _ | .subnReg _ _ | .shl _ _ => s.status
  | .ldI _ | .jpV0 _ | .rnd _ _ | .drw _ _ _ | .skp _ | .sknp _ | .ldVxDT _ | .ldDTVx _ | .ldSTVx _ => s.status
  | .addIVx _ | .ldFVx _ | .ldBVx _ | .ldMemVx _ | .ldVxMem _ => s.status

/-- The program counters an instruction that does not fault can leave (R14). -/
def pcAfter (i : Instr) (s : State) (w : Word) : Prop :=
  match i with
  | .jp nnn | .call nnn => w.toNat = nnn.toNat
  | .jpV0 nnn => w.toNat = nnn.toNat + (s.getV 0).toNat
  | .ret => ∃ k : Fin 16, k.val + 1 = s.sp.val ∧ w = s.stk[k]
  | .seImm x nn => w = if s.getV x = nn then s.pc + 4 else s.pc + 2
  | .sneImm x nn => w = if s.getV x = nn then s.pc + 2 else s.pc + 4
  | .seReg x y => w = if s.getV x = s.getV y then s.pc + 4 else s.pc + 2
  | .sneReg x y => w = if s.getV x = s.getV y then s.pc + 2 else s.pc + 4
  | .skp x => w = if Config.isPressed s.draws (s.getV x) then s.pc + 4 else s.pc + 2
  | .sknp x => w = if Config.isPressed s.draws (s.getV x) then s.pc + 2 else s.pc + 4
  | .cls | .ldImm _ _ | .addImm _ _ | .ldReg _ _ | .orReg _ _ | .andReg _ _ | .xorReg _ _ => w = s.pc + 2
  | .addReg _ _ | .subReg _ _ | .shr _ _ | .subnReg _ _ | .shl _ _ => w = s.pc + 2
  | .ldI _ | .rnd _ _ | .drw _ _ _ | .ldVxDT _ | .ldVxK _ | .ldDTVx _ | .ldSTVx _ => w = s.pc + 2
  | .addIVx _ | .ldFVx _ | .ldBVx _ | .ldMemVx _ | .ldVxMem _ => w = s.pc + 2

/-! ## Illegal words (R66) -/

/-- The groups of R66, read off its table by nibbles: `op`, then `n`, `nn` or the whole word. -/
def illegalWord (w : Word) : Bool :=
  let op := w.toNat / 4096
  let n := w.toNat % 16
  let nn := w.toNat % 256
  (op == 0 && w != 0x00E0 && w != 0x00EE) ||
  (op == 5 && n != 0) ||
  (op == 8 && (n == 8 || n == 9 || n == 0xA || n == 0xB || n == 0xC || n == 0xD || n == 0xF)) ||
  (op == 9 && n != 0) ||
  (op == 0xE && nn != 0x9E && nn != 0xA1) ||
  (op == 0xF && nn != 0x07 && nn != 0x0A && nn != 0x15 && nn != 0x18 && nn != 0x1E && nn != 0x29 &&
    nn != 0x33 && nn != 0x55 && nn != 0x65)

/-! ## Sprites (R132, R133) -/

/-- The pixel (cx, cy) is covered by the n-row sprite at I drawn at (V[x], V[y]): some set bit `7 - c` of the byte at
I + r falls on it (R133(a)). -/
def covered (s : State) (x y : Reg) (n cx cy : Nat) : Prop :=
  ∃ r c : Nat, r < n ∧ c < 8 ∧ (s.readByte (s.index.toNat + r)).getLsbD (7 - c) = true ∧
    cx = ((s.getV x).toNat + c) % Config.displayW ∧ cy = ((s.getV y).toNat + r) % Config.displayH

end Sys2Proof.Machine
end

