-- ==== Sys2Proof/Certificates/Slice0/Obligations.lean ====
section
/-! DEFINITION. The statements for the provers. A statement whose docstring names a decision `D<n>` of
spec/92_eei_decisions.md or a log entry rests on a choice that the source document does not make. `s.pc + 2` is the
16-bit sum; no instruction that a step executes meets its wrap (R14, log entry 24). -/

open Sys2Proof Sys2Proof.Machine
open Sys2Proof.Config (displayW displayH)

/-! ## Instruction words (spec/30_encoding.md) -/

/-- R62, R63, R65: decoding the word of a well-formed instruction gives it back, every operand at every value its field
admits; the same from its two bytes, high byte first (R44), with whatever follows left over. -/
def Obligations.DecodeOfEncodeIsIdentity : Prop :=
  ∀ i : Instr, i.wf = true →
    decodeWord (encode i) = .ok i ∧ ∀ rest : List Byte, decode (encodeBytes i ++ rest) = .ok (i, rest)

/-- R62, R67: every legal word is the word of the instruction it decodes to (the ignored y of 8xy6 and 8xyE is kept),
and that instruction is well-formed. -/
def Obligations.EncodeOfDecodeIsIdentity : Prop :=
  ∀ (w : Word) (i : Instr), decodeWord w = .ok i → encode i = w ∧ i.wf = true

/-- R65: 34 rows; no word matches two of them; a word that matches a row decodes to an instruction of that row; a word
that matches none is rejected as BadOpcode; and a word that decodes matches the row of its instruction. -/
def Obligations.DecoderFollowsTheOpcodeMap : Prop :=
  opcodeRows.length = 34 ∧
  (∀ (w : Word) (r r' : OpcodeRow), r ∈ opcodeRows → r' ∈ opcodeRows →
    w &&& r.mask = r.bits → w &&& r'.mask = r'.bits → r = r') ∧
  (∀ (w : Word) (r : OpcodeRow), r ∈ opcodeRows → w &&& r.mask = r.bits →
    ∃ i, decodeWord w = .ok i ∧ mnemonicOf i = r.mnemonic) ∧
  (∀ w : Word, (∀ r ∈ opcodeRows, w &&& r.mask ≠ r.bits) → decodeWord w = .error (.badOpcode w)) ∧
  (∀ (w : Word) (i : Instr), decodeWord w = .ok i →
    ∃ r ∈ opcodeRows, r.mnemonic = mnemonicOf i ∧ w &&& r.mask = r.bits)

/-- R66: the words of the six illegal groups are exactly the words the decoder rejects, each by its own value, and every
other word is an instruction. -/
def Obligations.IllegalWordsAreExactlyTheRejectedOnes : Prop :=
  ∀ w : Word, (illegalWord w = true → decodeWord w = .error (.badOpcode w)) ∧
    (illegalWord w = false → ∃ i, decodeWord w = .ok i)

/-- Words the spec prints: EX9's program 6005, 7003, A2F0 (R101, R102, R120); 00EE (R80); the examples 8F14 (R107), 8106
(R109), D122 (R132), E49E (R141), F265 (R125); and the illegal FFFF (R60, R161, EX10). -/
def Obligations.ExampleWordsDecodeAsTheRulesPrintThem : Prop :=
  decodeWord 0x6005 = .ok (.ldImm 0 5) ∧ decodeWord 0x7003 = .ok (.addImm 0 3) ∧
  decodeWord 0xA2F0 = .ok (.ldI 0x2F0) ∧ decodeWord 0x00EE = .ok .ret ∧
  decodeWord 0x8F14 = .ok (.addReg 15 1) ∧ decodeWord 0x8106 = .ok (.shr 1 0) ∧
  decodeWord 0xD122 = .ok (.drw 1 2 2) ∧ decodeWord 0xE49E = .ok (.skp 4) ∧
  decodeWord 0xF265 = .ok (.ldVxMem 2) ∧ decodeWord 0xFFFF = .error (.badOpcode 0xFFFF)

/-! ## One step (R60, R167, R168, spec/60_exceptions.md) -/

/-- R60, R44: in STATUS Running with PC and PC + 1 in memory, a step is the meaning, at the state before the step, of the
instruction the two bytes at PC form, high byte first. Nothing is added around it. -/
def Obligations.StepRunsTheDecodedInstruction : Prop :=
  ∀ (s : State) (i : Instr), s.status = .running → s.pc.toNat ≤ 4094 →
    decodeWord (s.readByte s.pc.toNat ++ s.readByte (s.pc.toNat + 1)) = .ok i → step s = exec i s

/-- The model's own (log entry 21): an instruction placed by `withFetchWord` is the one the very next step runs, from
every state whose memory is canonical. -/
def Obligations.PlacedInstructionRunsNext : Prop :=
  ∀ (s : State) (i : Instr), s.mem.wf = true → i.wf = true →
    step (s.withFetchWord 16 (encode i).toNat) = exec i (s.withFetchWord 16 (encode i).toNat)

/-- R60, R179: in STATUS WaitingForKey a step changes nothing; and so it is in Faulted (R168, the spec's decision D2, log
entry 2). -/
def Obligations.StepOutsideRunningChangesNothing : Prop :=
  ∀ s : State, s.status ≠ .running → step s = .next s

/-- R41, R164(a), R167 (info: D3, precise: D2): a fetch with PC above 4094 raises AddressError with info PC, or 4096 when
PC is 4095, and changes nothing but STATUS, whatever the bytes are. -/
def Obligations.FetchOutsideMemoryIsAnAddressError : Prop :=
  ∀ s : State, s.status = .running → 4094 < s.pc.toNat →
    ∃ t, step s = .next t ∧ faultsWith .addressError (if s.pc.toNat = 4095 then 4096 else s.pc.toNat) s t

/-- R66, R161 (PC kept: C4, D2): an illegal word at PC raises BadOpcode with the word as info and changes nothing but
STATUS. -/
def Obligations.IllegalWordIsABadOpcodeFault : Prop :=
  ∀ (s : State) (w : Word), s.status = .running → s.pc.toNat ≤ 4094 →
    w = s.readByte s.pc.toNat ++ s.readByte (s.pc.toNat + 1) → illegalWord w = true →
    ∃ t, step s = .next t ∧ faultsWith .badOpcode w.toNat s t

/-- R195: every event terminates, a step included, in every STATUS; no step and no sequence of events stops the
machine. -/
def Obligations.EverySequenceOfEventsAnswersAState : Prop :=
  (∀ s : State, ∃ t, step s = .next t) ∧ ∀ (es : List Event) (s : State), ∃ t, runEvents es s = .next t

/-- R165 (D2): faults are precise. A step that ends in a fault changes nothing but STATUS: PC is still the address of the
faulting instruction, and no register, memory byte, stack slot, timer or pixel has changed. -/
def Obligations.FaultsArePrecise : Prop :=
  ∀ (s t : State) (c : FaultCause) (n : BitVec 17), s.status = .running → step s = .next t →
    t.status = .faulted c n → t = { s with status := .faulted c n }

/-- R180, R160, R162 to R164 (info: D3, log entry 15; nothing but STATUS changes: R165, D2, log entry 2): which
instruction raises which execution fault, when, and with which info; every other instruction leaves STATUS as it is, but
for Fx0A, which leaves WaitingForKey(x) (R18, R144). -/
def Obligations.StatusAfterEveryInstruction : Prop :=
  ∀ (i : Instr) (s t : State), exec i s = .next t →
    (∀ c n, faultOf i s = some (c, n) → faultsWith c n s t) ∧
    (faultOf i s = none → t.status = statusUnlessFaulted i s)

/-- R168, R169, R26(g) (D2): only `reset()` leaves Faulted. Through every other sequence of events the cause and info
stay, and so do the registers, the stack and the display. -/
def Obligations.FaultedIsLeftOnlyByReset : Prop :=
  ∀ (es : List Event) (s t : State) (c : FaultCause) (n : BitVec 17), s.status = .faulted c n →
    (∀ e ∈ es, e ≠ .reset) → runEvents es s = .next t →
    t.status = .faulted c n ∧ t.v = s.v ∧ t.index = s.index ∧ t.sp = s.sp ∧ t.stk = s.stk ∧ t.fb = s.fb

/-- R145, R179, R155: while the engine waits for a key, any number of steps and timer ticks leave everything but DT and ST
as it is; the wait has no timeout. -/
def Obligations.TheWaitSurvivesStepsAndTicks : Prop :=
  ∀ (es : List Event) (s t : State) (r : Reg), s.status = .waitingForKey r →
    (∀ e ∈ es, e = .step ∨ e = .tickTimers) → runEvents es s = .next t → t = { s with dt := t.dt, st := t.st }

/-! ## The invariant (R26) -/

/-- The invariant holds after reset: R26(c), (e) at the state of R25, and the canonical form of memory, which is the
model's own choice of representation (log entry 23, DESIGN CHOICE). -/
def Obligations.ResetMeetsTheInvariant : Prop := Inv State.reset

/-- R26(c), (e): every step keeps PC in 0 to 0x10FE and every meaningful stack slot in 2 to 4096; and it keeps memory
canonical, which is the model's own choice of representation and no clause of R26 (log entry 23, DESIGN CHOICE). -/
def Obligations.EveryStepKeepsTheInvariant : Prop :=
  ∀ s t : State, Inv s → step s = .next t → Inv t

/-- R26(c), (e), R172: the invariant holds after every sequence of events, in every order the host may issue them; its
clause that memory is canonical is the model's own choice of representation (log entry 23, DESIGN CHOICE). -/
def Obligations.EverySequenceOfEventsKeepsTheInvariant : Prop :=
  ∀ (es : List Event) (s t : State), Inv s → runEvents es s = .next t → Inv t

/-! ## Who reads and writes what (R11 to R14, R19, R54) -/

/-- R12, R11: an instruction changes only the general registers its rule writes. -/
def Obligations.OnlyNamedRegistersAreWritten : Prop :=
  ∀ (i : Instr) (s t : State) (r : Reg), exec i s = .next t → writesV i r = false → t.getV r = s.getV r

/-- R12: a register an instruction neither reads nor writes does not matter to it. With any other value in that register
the instruction does the same, and the value is still there afterwards. For RND, SKP and SKNP the two runs draw the same
environment value, because the model's own counter numbers the draws (log entry 20, DESIGN CHOICE); the spec promises no
two equal bytes or answers (R24, R140), so for these three it says that the register does not matter to what they do
with the value drawn. -/
def Obligations.UnreadRegistersDoNotMatter : Prop :=
  ∀ (i : Instr) (s t : State) (r : Reg) (b : Byte), readsV i r = false → writesV i r = false →
    exec i s = .next t → exec i (s.setV r b) = .next (t.setV r b)

/-- R54: no instruction but Fx33 and Fx55 changes a byte of memory. -/
def Obligations.OnlyBcdAndRegisterStoreWriteMemory : Prop :=
  ∀ (i : Instr) (s t : State), (∀ x, i ≠ .ldBVx x) → (∀ x, i ≠ .ldMemVx x) → exec i s = .next t → sameMemory s t

/-- R13, R15, R19, R22 (and, for the draw counter, log entry 20): I changes only by Annn, Fx1E, Fx29; DT only by Fx15; ST
only by Fx18; the call stack only by CALL and RET; the framebuffer only by CLS and DRW; a value is drawn from the
environment only by RND, SKP and SKNP. -/
def Obligations.OnlyTheirOwnInstructionsWriteSystemState : Prop :=
  ∀ (i : Instr) (s t : State), exec i s = .next t →
    (t.index ≠ s.index → (∃ a, i = .ldI a) ∨ (∃ x, i = .addIVx x) ∨ ∃ x, i = .ldFVx x) ∧
    (t.dt ≠ s.dt → ∃ x, i = .ldDTVx x) ∧
    (t.st ≠ s.st → ∃ x, i = .ldSTVx x) ∧
    (t.sp ≠ s.sp ∨ t.stk ≠ s.stk → i = .ret ∨ ∃ a, i = .call a) ∧
    (t.fb ≠ s.fb → i = .cls ∨ ∃ x y n, i = .drw x y n) ∧
    (t.draws ≠ s.draws → (∃ x b, i = .rnd x b) ∨ (∃ x, i = .skp x) ∨ ∃ x, i = .sknp x)

/-- R14: how each instruction leaves PC when it does not fault, and that a fault leaves PC unchanged (R165, D2, log
entry 2). -/
def Obligations.ProgramCounterAfterEveryInstruction : Prop :=
  ∀ (i : Instr) (s t : State), exec i s = .next t →
    (faultOf i s = none → pcAfter i s t.pc) ∧ (faultOf i s ≠ none → t.pc = s.pc)

/-- R11, R100, R26(h): the six flag-writing instructions leave VF 0 or 1 (the five ALU ones with x other than 15). -/
def Obligations.FlagWritersLeaveZeroOrOneInVF : Prop :=
  ∀ (i : Instr) (s t : State), writesFlagToVF i = true → faultOf i s = none → exec i s = .next t →
    t.getV 15 = 0 ∨ t.getV 15 = 1

/-! ## Control transfer (spec/40_control.md) -/

/-- R81: 1nnn is JP, it completes in every state with PC = nnn and nothing else changed; a jump to its own address
changes nothing; after a jump to 0xFFF the next fetch raises AddressError(4096) (info: D3, log entry 15) and changes
nothing but STATUS (R165, D2, log entry 2). -/
def Obligations.JumpReachesItsTarget : Prop :=
  ∀ (nnn : Addr) (s : State), decodeWord (0x1#4 ++ nnn) = .ok (.jp nnn) ∧
    ∃ t, exec (.jp nnn) s = .next t ∧ t.pc.toNat = nnn.toNat ∧ onlyPc s t ∧
      (s.pc.toNat = nnn.toNat → t = s) ∧
      (nnn = 0xFFF → s.status = .running → ∃ u, step t = .next u ∧ faultsWith .addressError 4096 t u)

/-- R82, R15: with room on the stack, 2nnn pushes PC + 2 and jumps; every other slot and all else stay. -/
def Obligations.CallPushesTheReturnAddress : Prop :=
  ∀ (nnn : Addr) (s : State), decodeWord (0x2#4 ++ nnn) = .ok (.call nnn) ∧
    (s.sp.val < 16 →
      ∃ t, exec (.call nnn) s = .next t ∧ t.pc.toNat = nnn.toNat ∧ t.sp.val = s.sp.val + 1 ∧
        (∀ k : Fin 16, t.stk[k] = if k.val = s.sp.val then s.pc + 2 else s.stk[k]) ∧
        t = { s with pc := t.pc, sp := t.sp, stk := t.stk } ∧ sameRegs s t ∧ sameMemory s t)

/-- R80, R15: with a return address on the stack, 00EE pops it into PC; the slots that still count and all else stay, and
so does the popped slot, which is the model's own choice (log entry 18, DESIGN CHOICE; no program can observe it). -/
def Obligations.ReturnPopsTheAddress : Prop :=
  decodeWord 0x00EE = .ok .ret ∧
  ∀ (s : State) (k : Fin 16), k.val + 1 = s.sp.val →
    ∃ t, exec .ret s = .next t ∧ t.pc = s.stk[k] ∧ t.sp.val = k.val ∧
      t = { s with pc := t.pc, sp := t.sp } ∧ sameRegs s t ∧ sameMemory s t

/-- R162, R163, R15 (info: D3, precise: D2): CALL on a full stack and RET on an empty one fault with PC as info and change
nothing but STATUS. -/
def Obligations.StackFaultsRecordThePc : Prop :=
  ∀ (nnn : Addr) (s : State),
    (s.sp.val = 16 → ∃ t, exec (.call nnn) s = .next t ∧ faultsWith .stackOverflow s.pc.toNat s t) ∧
    (s.sp.val = 0 → ∃ t, exec .ret s = .next t ∧ faultsWith .stackUnderflow s.pc.toNat s t)

/-- R88 (doc00 §8): CALL, then RET at the target, restores PC to the instruction after the CALL, SP and every slot below
it, and changes nothing else. -/
def Obligations.CallThenReturnComesBack : Prop :=
  ∀ (nnn : Addr) (s : State), s.sp.val < 16 →
    ∃ t u, exec (.call nnn) s = .next t ∧ exec .ret t = .next u ∧ u.pc = s.pc + 2 ∧ u.sp = s.sp ∧
      (∀ k : Fin 16, k.val < s.sp.val → u.stk[k] = s.stk[k]) ∧ u = { s with pc := u.pc, stk := u.stk }

/-- R83, R84: 3xnn and 4xnn compare V[x] with nn, skip one instruction or none, and change nothing but PC. -/
def Obligations.ImmediateSkipsCompareAndSkip : Prop :=
  ∀ (x : Reg) (nn : Byte) (s : State),
    decodeWord (0x3#4 ++ bitsOfReg x ++ nn) = .ok (.seImm x nn) ∧
    decodeWord (0x4#4 ++ bitsOfReg x ++ nn) = .ok (.sneImm x nn) ∧
    ∃ t u, exec (.seImm x nn) s = .next t ∧ exec (.sneImm x nn) s = .next u ∧
      (s.getV x = nn → t.pc = s.pc + 4 ∧ u.pc = s.pc + 2) ∧
      (s.getV x ≠ nn → t.pc = s.pc + 2 ∧ u.pc = s.pc + 4) ∧ onlyPc s t ∧ onlyPc s u

/-- R85, R86: 5xy0 and 9xy0 compare V[x] with V[y], skip one instruction or none, and change nothing but PC (x = y always
skips by SE and never by SNE); with n other than 0 the words are BadOpcode. -/
def Obligations.RegisterSkipsCompareAndSkip : Prop :=
  ∀ (x y : Reg) (s : State),
    decodeWord (0x5#4 ++ bitsOfReg x ++ bitsOfReg y ++ 0x0#4) = .ok (.seReg x y) ∧
    decodeWord (0x9#4 ++ bitsOfReg x ++ bitsOfReg y ++ 0x0#4) = .ok (.sneReg x y) ∧
    (∀ n : BitVec 4, n ≠ 0 →
      decodeWord (0x5#4 ++ bitsOfReg x ++ bitsOfReg y ++ n) =
        .error (.badOpcode (0x5#4 ++ bitsOfReg x ++ bitsOfReg y ++ n)) ∧
      decodeWord (0x9#4 ++ bitsOfReg x ++ bitsOfReg y ++ n) =
        .error (.badOpcode (0x9#4 ++ bitsOfReg x ++ bitsOfReg y ++ n))) ∧
    ∃ t u, exec (.seReg x y) s = .next t ∧ exec (.sneReg x y) s = .next u ∧
      (s.getV x = s.getV y → t.pc = s.pc + 4 ∧ u.pc = s.pc + 2) ∧
      (s.getV x ≠ s.getV y → t.pc = s.pc + 2 ∧ u.pc = s.pc + 4) ∧ onlyPc s t ∧ onlyPc s u

/-- R87: Bnnn jumps to the ordinary sum nnn + V[0], always register 0, and changes nothing but PC. -/
def Obligations.IndexedJumpAddsV0 : Prop :=
  ∀ (nnn : Addr) (s : State), decodeWord (0xB#4 ++ nnn) = .ok (.jpV0 nnn) ∧
    ∃ t, exec (.jpV0 nnn) s = .next t ∧ t.pc.toNat = nnn.toNat + (s.getV 0).toNat ∧ onlyPc s t

/-! ## Load and ALU (spec/41_load_alu.md) -/

/-- R101, R102: 6xnn loads nn, 7xnn adds nn modulo 256; VF is written only when x = 15 names it. -/
def Obligations.ImmediateLoadAndAddResults : Prop :=
  ∀ (x : Reg) (nn : Byte) (s : State),
    decodeWord (0x6#4 ++ bitsOfReg x ++ nn) = .ok (.ldImm x nn) ∧
    decodeWord (0x7#4 ++ bitsOfReg x ++ nn) = .ok (.addImm x nn) ∧
    (∃ t, exec (.ldImm x nn) s = .next t ∧ writesOneReg x nn s t) ∧
    ∃ t, exec (.addImm x nn) s = .next t ∧
      writesOneReg x (BitVec.ofNat 8 (((s.getV x).toNat + nn.toNat) % 256)) s t

/-- R103 to R106: 8xy0 copies, 8xy1 is OR, 8xy2 AND, 8xy3 XOR; VF is written only when x = 15 names it. -/
def Obligations.CopyAndLogicResults : Prop :=
  ∀ (x y : Reg) (s : State),
    decodeWord (0x8#4 ++ bitsOfReg x ++ bitsOfReg y ++ 0x0#4) = .ok (.ldReg x y) ∧
    decodeWord (0x8#4 ++ bitsOfReg x ++ bitsOfReg y ++ 0x1#4) = .ok (.orReg x y) ∧
    decodeWord (0x8#4 ++ bitsOfReg x ++ bitsOfReg y ++ 0x2#4) = .ok (.andReg x y) ∧
    decodeWord (0x8#4 ++ bitsOfReg x ++ bitsOfReg y ++ 0x3#4) = .ok (.xorReg x y) ∧
    (∃ t, exec (.ldReg x y) s = .next t ∧ writesOneReg x (s.getV y) s t) ∧
    (∃ t, exec (.orReg x y) s = .next t ∧ writesOneReg x (s.getV x ||| s.getV y) s t) ∧
    (∃ t, exec (.andReg x y) s = .next t ∧ writesOneReg x (s.getV x &&& s.getV y) s t) ∧
    ∃ t, exec (.xorReg x y) s = .next t ∧ writesOneReg x (s.getV x ^^^ s.getV y) s t

/-- R107 (x = 15: D6): 8xy4 leaves the sum modulo 256 in V[x] and, when x is not 15, the carry in VF. -/
def Obligations.AddSetsCarry : Prop :=
  ∀ (x y : Reg) (s : State),
    decodeWord (0x8#4 ++ bitsOfReg x ++ bitsOfReg y ++ 0x4#4) = .ok (.addReg x y) ∧
    ∃ t, exec (.addReg x y) s = .next t ∧
      writesFlagAndReg x ((s.getV x).toNat + (s.getV y).toNat > 255)
        (BitVec.ofNat 8 (((s.getV x).toNat + (s.getV y).toNat) % 256)) s t

/-- R108, R110 (x = 15: D6): 8xy5 leaves V[x] - V[y] and 8xy7 leaves V[y] - V[x], modulo 256, and VF = 1 iff the minuend
is strictly greater, when x is not 15. -/
def Obligations.SubtractionsSetGreater : Prop :=
  ∀ (x y : Reg) (s : State),
    decodeWord (0x8#4 ++ bitsOfReg x ++ bitsOfReg y ++ 0x5#4) = .ok (.subReg x y) ∧
    decodeWord (0x8#4 ++ bitsOfReg x ++ bitsOfReg y ++ 0x7#4) = .ok (.subnReg x y) ∧
    (∃ t, exec (.subReg x y) s = .next t ∧
      writesFlagAndReg x ((s.getV x).toNat > (s.getV y).toNat)
        (BitVec.ofNat 8 ((256 + (s.getV x).toNat - (s.getV y).toNat) % 256)) s t) ∧
    ∃ t, exec (.subnReg x y) s = .next t ∧
      writesFlagAndReg x ((s.getV y).toNat > (s.getV x).toNat)
        (BitVec.ofNat 8 ((256 + (s.getV y).toNat - (s.getV x).toNat) % 256)) s t

/-- R109, R111 (x = 15: D6): 8xy6 and 8xyE shift V[x] by one position with the bit shifted out in VF when x is not 15;
every value of y decodes and none matters. -/
def Obligations.ShiftsMoveOneBitIntoVF : Prop :=
  ∀ (x y : Reg) (s : State),
    decodeWord (0x8#4 ++ bitsOfReg x ++ bitsOfReg y ++ 0x6#4) = .ok (.shr x y) ∧
    decodeWord (0x8#4 ++ bitsOfReg x ++ bitsOfReg y ++ 0xE#4) = .ok (.shl x y) ∧
    (∃ t, exec (.shr x y) s = .next t ∧
      writesFlagAndReg x ((s.getV x).toNat % 2 = 1) (BitVec.ofNat 8 ((s.getV x).toNat / 2)) s t) ∧
    ∃ t, exec (.shl x y) s = .next t ∧
      writesFlagAndReg x (128 ≤ (s.getV x).toNat) (BitVec.ofNat 8 (2 * (s.getV x).toNat % 256)) s t

/-- R113 (D16; the byte is a free value, log entry 7): Cxnn leaves the environment's byte masked with nn, so no bit
outside nn and a value of at most nn, and draws one value (the counter is the model's own, log entry 20). -/
def Obligations.RandomByteIsMasked : Prop :=
  ∀ (x : Reg) (nn : Byte) (s : State),
    decodeWord (0xC#4 ++ bitsOfReg x ++ nn) = .ok (.rnd x nn) ∧
    ∃ t, exec (.rnd x nn) s = .next t ∧ t.getV x = Config.randomByte s.draws &&& nn ∧
      t.getV x &&& ~~~nn = 0 ∧ (t.getV x).toNat ≤ nn.toNat ∧ sameRegsBut x s t ∧
      t = { s with v := t.v, pc := s.pc + 2, draws := s.draws + 1 } ∧ sameMemory s t

/-! ## Index and memory (spec/42_index_memory.md) -/

/-- R120: Annn leaves nnn in I and changes nothing else but PC. -/
def Obligations.IndexLoadResult : Prop :=
  ∀ (nnn : Addr) (s : State), decodeWord (0xA#4 ++ nnn) = .ok (.ldI nnn) ∧
    ∃ t, exec (.ldI nnn) s = .next t ∧ t.index.toNat = nnn.toNat ∧ sameRegs s t ∧
      t = { s with index := t.index, pc := s.pc + 2 } ∧ sameMemory s t

/-- R121, R13 (modulo 65536: D7): Fx1E adds V[x] to I without masking to 12 bits; VF is not written. -/
def Obligations.IndexAddResult : Prop :=
  ∀ (x : Reg) (s : State), decodeWord (0xF#4 ++ bitsOfReg x ++ 0x1E#8) = .ok (.addIVx x) ∧
    ∃ t, exec (.addIVx x) s = .next t ∧ t.index.toNat = (s.index.toNat + (s.getV x).toNat) % 65536 ∧ sameRegs s t ∧
      t = { s with index := t.index, pc := s.pc + 2 } ∧ sameMemory s t

/-- R122: Fx29 leaves 5 * V[x] in I, the whole 8-bit value multiplied; memory is not accessed. -/
def Obligations.GlyphAddressResult : Prop :=
  ∀ (x : Reg) (s : State), decodeWord (0xF#4 ++ bitsOfReg x ++ 0x29#8) = .ok (.ldFVx x) ∧
    ∃ t, exec (.ldFVx x) s = .next t ∧ t.index.toNat = (s.getV x).toNat * 5 ∧ sameRegs s t ∧
      t = { s with index := t.index, pc := s.pc + 2 } ∧ sameMemory s t

/-- R123, R126: with I at most 4093, Fx33 stores the hundreds, tens and ones digits at I, I + 1, I + 2; every other byte,
the registers and I stay. -/
def Obligations.BcdStoresThreeDigits : Prop :=
  ∀ (x : Reg) (s : State), decodeWord (0xF#4 ++ bitsOfReg x ++ 0x33#8) = .ok (.ldBVx x) ∧
    (s.mem.wf = true → s.index.toNat ≤ 4093 →
      ∃ t, exec (.ldBVx x) s = .next t ∧
        (t.readByte s.index.toNat).toNat = (s.getV x).toNat / 100 ∧
        (t.readByte (s.index.toNat + 1)).toNat = (s.getV x).toNat / 10 % 10 ∧
        (t.readByte (s.index.toNat + 2)).toNat = (s.getV x).toNat % 10 ∧
        (∀ a, a < s.index.toNat ∨ s.index.toNat + 3 ≤ a → t.readByte a = s.readByte a) ∧
        sameRegs s t ∧ t = { s with mem := t.mem, pc := s.pc + 2 })

/-- R124, R126: with I + x at most 4095, Fx55 stores V[r] at I + r for r = 0 to x; every other byte, the registers and I
stay. -/
def Obligations.RegisterStoreWritesV0ToVx : Prop :=
  ∀ (x : Reg) (s : State), decodeWord (0xF#4 ++ bitsOfReg x ++ 0x55#8) = .ok (.ldMemVx x) ∧
    (s.mem.wf = true → s.index.toNat + x.val ≤ 4095 →
      ∃ t, exec (.ldMemVx x) s = .next t ∧
        (∀ r : Reg, r ≤ x → t.readByte (s.index.toNat + r.val) = s.getV r) ∧
        (∀ a, a < s.index.toNat ∨ s.index.toNat + x.val + 1 ≤ a → t.readByte a = s.readByte a) ∧
        sameRegs s t ∧ t = { s with mem := t.mem, pc := s.pc + 2 })

/-- R125, R126: with I + x at most 4095, Fx65 loads V[r] from I + r for r = 0 to x; the registers above x, memory and I
stay. -/
def Obligations.RegisterLoadReadsV0ToVx : Prop :=
  ∀ (x : Reg) (s : State), decodeWord (0xF#4 ++ bitsOfReg x ++ 0x65#8) = .ok (.ldVxMem x) ∧
    (s.index.toNat + x.val ≤ 4095 →
      ∃ t, exec (.ldVxMem x) s = .next t ∧
        (∀ r : Reg, r ≤ x → t.getV r = s.readByte (s.index.toNat + r.val)) ∧
        (∀ r : Reg, x < r → t.getV r = s.getV r) ∧ advanced s t ∧ onlyRegsAndPc s t)

/-- R126, R164(b) to (d), R42, R43 (no wrap: D8, info: D3, precise: D2): an access through I that leaves 0 to 4095 raises
AddressError(max(I, 4096)) and changes nothing but STATUS. -/
def Obligations.AccessThroughIndexOutsideMemoryFaults : Prop :=
  ∀ (x y : Reg) (n : Nat) (s : State),
    (4095 < s.index.toNat + 2 →
      ∃ t, exec (.ldBVx x) s = .next t ∧ faultsWith .addressError (max s.index.toNat 4096) s t) ∧
    (4095 < s.index.toNat + x.val →
      (∃ t, exec (.ldMemVx x) s = .next t ∧ faultsWith .addressError (max s.index.toNat 4096) s t) ∧
      ∃ t, exec (.ldVxMem x) s = .next t ∧ faultsWith .addressError (max s.index.toNat 4096) s t) ∧
    (0 < n → 4095 < s.index.toNat + n - 1 →
      ∃ t, exec (.drw x y n) s = .next t ∧ faultsWith .addressError (max s.index.toNat 4096) s t)

/-- doc00 §8 "FX55/FX65 round-trip" (EX6, R124 to R126): storing V0 to Vx and then loading them at the same I, from any
state with that memory, gives back the stored registers. -/
def Obligations.StoreThenLoadRestoresRegisters : Prop :=
  ∀ (x : Reg) (s t u : State), s.mem.wf = true → s.index.toNat + x.val ≤ 4095 → exec (.ldMemVx x) s = .next t →
    u.mem = t.mem → u.index = s.index →
    ∃ w, exec (.ldVxMem x) u = .next w ∧ (∀ r : Reg, r ≤ x → w.getV r = s.getV r) ∧
      ∀ r : Reg, x < r → w.getV r = u.getV r

/-- R52, R200: a store is seen by the very next fetch. With I at the next instruction, Fx55 with x at least 1 replaces it:
the next step runs the instruction that V0 and V1 form. -/
def Obligations.StoredInstructionRunsNext : Prop :=
  ∀ (x : Reg) (i : Instr) (s t : State), s.mem.wf = true → s.status = .running → s.pc.toNat ≤ 4092 →
    s.index.toNat = s.pc.toNat + 2 → s.index.toNat + x.val ≤ 4095 → 1 ≤ x →
    decodeWord (s.getV 0 ++ s.getV 1) = .ok i → exec (.ldMemVx x) s = .next t → step t = exec i t

/-! ## Display (spec/43_display.md) -/

/-- R131: 00E0 unsets every pixel and changes nothing else but PC. -/
def Obligations.ClearScreenClearsEveryPixel : Prop :=
  decodeWord 0x00E0 = .ok .cls ∧
  ∀ s : State, ∃ t, exec .cls s = .next t ∧
    (∀ cx cy, cx < displayW → cy < displayH → pixelAt t.fb cx cy = false) ∧
    sameRegs s t ∧ t = { s with fb := t.fb, pc := s.pc + 2 } ∧ sameMemory s t

/-- R132, R133(a), (b) (bit order: D11, sums: D12, display size: D10, no row: D23, log entry 26): with the sprite in memory, or with no row at all,
Dxyn toggles exactly the covered pixels, each once, and leaves VF = 1 when one of them was set and VF = 0 otherwise;
nothing else changes but PC. -/
def Obligations.DrawTogglesExactlyTheCoveredPixels : Prop :=
  ∀ (x y : Reg) (n : Nat) (s : State), n ≤ 15 → n = 0 ∨ s.index.toNat + n ≤ 4096 →
    decodeWord (0xD#4 ++ bitsOfReg x ++ bitsOfReg y ++ BitVec.ofNat 4 n) = .ok (.drw x y n) ∧
    ∃ t, exec (.drw x y n) s = .next t ∧
      (∀ cx cy, cx < displayW → cy < displayH →
        (covered s x y n cx cy → pixelAt t.fb cx cy = !pixelAt s.fb cx cy) ∧
        (¬ covered s x y n cx cy → pixelAt t.fb cx cy = pixelAt s.fb cx cy)) ∧
      ((∃ cx cy, covered s x y n cx cy ∧ pixelAt s.fb cx cy = true) → t.getV 15 = 1) ∧
      ((∀ cx cy, covered s x y n cx cy → pixelAt s.fb cx cy = false) → t.getV 15 = 0) ∧
      sameRegsBut 15 s t ∧ t = { s with v := t.v, fb := t.fb, pc := s.pc + 2 } ∧ sameMemory s t

/-- R133(c), doc00 §8 "DRW collision" (EX7; bit order: D11, sums: D12, display size: D10, no row: D23): the same sprite drawn again at the same place restores the framebuffer; if it
has a set bit and its pixels were all unset, the first draw leaves VF = 0 and the second VF = 1. The second draw starts
from any state with the same coordinates, I and sprite bytes and the first draw's framebuffer. -/
def Obligations.DrawingTwiceRestoresTheDisplay : Prop :=
  ∀ (x y : Reg) (n : Nat) (s t s' : State), n ≤ 15 → n = 0 ∨ s.index.toNat + n ≤ 4096 →
    exec (.drw x y n) s = .next t →
    s'.fb = t.fb → s'.getV x = s.getV x → s'.getV y = s.getV y → s'.index = s.index → sameMemory s s' →
    ∃ u, exec (.drw x y n) s' = .next u ∧ u.fb = s.fb ∧
      ((∃ cx cy, covered s x y n cx cy) → (∀ cx cy, covered s x y n cx cy → pixelAt s.fb cx cy = false) →
        t.getV 15 = 0 ∧ u.getV 15 = 1)

/-! ## Keyboard (spec/44_keyboard.md) -/

/-- R140 to R142 (D14; the answer is a free value, log entry 8): Ex9E and ExA1 query the environment once with the whole
8-bit V[x], skip one instruction or none on its answer, and change nothing else but the draw counter (the model's own, log
entry 20). -/
def Obligations.KeySkipsFollowTheAnswer : Prop :=
  ∀ (x : Reg) (s : State),
    decodeWord (0xE#4 ++ bitsOfReg x ++ 0x9E#8) = .ok (.skp x) ∧
    decodeWord (0xE#4 ++ bitsOfReg x ++ 0xA1#8) = .ok (.sknp x) ∧
    ∃ t u, exec (.skp x) s = .next t ∧ exec (.sknp x) s = .next u ∧
      t.pc = (if Config.isPressed s.draws (s.getV x) then s.pc + 4 else s.pc + 2) ∧
      u.pc = (if Config.isPressed s.draws (s.getV x) then s.pc + 2 else s.pc + 4) ∧
      t = { s with pc := t.pc, draws := s.draws + 1 } ∧ u = { s with pc := u.pc, draws := s.draws + 1 } ∧
      sameRegs s t ∧ sameRegs s u ∧ sameMemory s t ∧ sameMemory s u

/-- R143 to R145, R60, doc00 §8 "FX0A" (EX8): Fx0A enters WaitingForKey(x) with PC at the next instruction and no register
written; after any number of steps, a key press writes the key to V[x], returns STATUS to Running and leaves PC. -/
def Obligations.KeyWaitEndsWithTheKeyInVx : Prop :=
  ∀ (x : Reg) (k : Key) (m : Nat) (s : State),
    decodeWord (0xF#4 ++ bitsOfReg x ++ 0x0A#8) = .ok (.ldVxK x) ∧
    ∃ t u, exec (.ldVxK x) s = .next t ∧ t = { s with status := .waitingForKey x, pc := s.pc + 2 } ∧
      sameRegs s t ∧ sameMemory s t ∧ t.waitKey = true ∧
      runEvents (List.replicate m .step ++ [.keyPress k]) t = .next u ∧
      (u.getV x).toNat = k.val ∧ sameRegsBut x s u ∧
      u = { s with v := u.v, status := .running, pc := s.pc + 2 }

/-- R143 (outside the wait and key range: D15): a key press ends WaitingForKey(r) with the key, zero-extended, in V[r] and
nothing else changed, PC included; in any other STATUS it changes nothing. -/
def Obligations.KeyPressActsOnlyOnAWait : Prop :=
  ∀ (k : Key) (s : State),
    (∀ r, s.status = .waitingForKey r →
      ((keyPress k s).getV r).toNat = k.val ∧ sameRegsBut r s (keyPress k s) ∧
      keyPress k s = { s with v := (keyPress k s).v, status := .running }) ∧
    ((∀ r, s.status ≠ .waitingForKey r) → keyPress k s = s)

/-! ## Timers (spec/45_timers.md) -/

/-- R150 to R152, R17: Fx07 reads DT into V[x], Fx15 writes V[x] to DT, Fx18 writes V[x] to ST, and `sound_on` follows at
once; nothing else changes but PC. -/
def Obligations.TimerMovesResults : Prop :=
  ∀ (x : Reg) (s : State),
    decodeWord (0xF#4 ++ bitsOfReg x ++ 0x07#8) = .ok (.ldVxDT x) ∧
    decodeWord (0xF#4 ++ bitsOfReg x ++ 0x15#8) = .ok (.ldDTVx x) ∧
    decodeWord (0xF#4 ++ bitsOfReg x ++ 0x18#8) = .ok (.ldSTVx x) ∧
    (∃ t, exec (.ldVxDT x) s = .next t ∧ writesOneReg x s.dt s t) ∧
    (∃ t, exec (.ldDTVx x) s = .next t ∧ t = { s with dt := s.getV x, pc := s.pc + 2 } ∧ sameRegs s t ∧
      sameMemory s t) ∧
    ∃ t, exec (.ldSTVx x) s = .next t ∧ t = { s with st := s.getV x, pc := s.pc + 2 } ∧ sameRegs s t ∧
      sameMemory s t ∧ (t.soundOn = true ↔ 0 < (s.getV x).toNat)

/-- R153: a tick decrements each timer by one, floored at zero, independently of the other, and changes nothing else. -/
def Obligations.TickDecrementsBothTimers : Prop :=
  ∀ s : State, (tickTimers s).dt.toNat = s.dt.toNat - 1 ∧ (tickTimers s).st.toNat = s.st.toNat - 1 ∧
    tickTimers s = { s with dt := (tickTimers s).dt, st := (tickTimers s).st } ∧ sameRegs s (tickTimers s) ∧
    sameMemory s (tickTimers s)

/-- R154, R155: after n ticks each timer reads max(v - n, 0), in every STATUS (in Faulted: D2, log entry 2), and nothing
else has changed. -/
def Obligations.TicksCountDownToZero : Prop :=
  ∀ (n : Nat) (s : State), ∃ t, runEvents (List.replicate n .tickTimers) s = .next t ∧
    t.dt.toNat = s.dt.toNat - n ∧ t.st.toNat = s.st.toNat - n ∧ t = { s with dt := t.dt, st := t.st }

/-! ## Reset and program load (spec/70_reset_and_hazards.md) -/

/-- R190, R25 (zeros: D4, font bytes: D13, framebuffer kept: D17): what the event `reset()` leaves, from every state and
STATUS. The draw counter is the model's own and goes on (log entry 20). -/
def Obligations.ResetEventLeavesTheResetState : Prop :=
  ∀ s : State, ∃ t, handle .reset s = .next t ∧
    (∀ r : Reg, t.getV r = 0) ∧ t.index = 0 ∧ t.pc = 0x200 ∧ t.sp = 0 ∧ (∀ k : Fin 16, t.stk[k] = 0) ∧
    t.dt = 0 ∧ t.st = 0 ∧ t.status = .running ∧ t.soundOn = false ∧ t.waitKey = false ∧
    (∀ a, a < 80 → t.readByte a = font.getD a 0) ∧ (∀ a, 80 ≤ a → t.readByte a = 0) ∧
    t.fb = s.fb ∧ t.draws = s.draws

/-- R193, R192, R166 (limits and STATUS: D18, D24): a program of at most 3584 bytes is written from 0x200 and PC becomes
0x200, every other byte and all else kept, in every STATUS; a longer one is reported as RomTooLarge and changes
nothing. -/
def Obligations.LoadProgramPlacesTheBytes : Prop :=
  ∀ (bytes : List Byte) (s : State), s.mem.wf = true →
    (bytes.length ≤ 3584 →
      loadReport bytes = none ∧
      (∀ k (h : k < bytes.length), (loadProgram bytes s).readByte (0x200 + k) = bytes[k]) ∧
      (∀ a, a < 0x200 ∨ 0x200 + bytes.length ≤ a → (loadProgram bytes s).readByte a = s.readByte a) ∧
      loadProgram bytes s = { s with mem := (loadProgram bytes s).mem, pc := 0x200 }) ∧
    (3584 < bytes.length →
      loadReport bytes = some (.romTooLarge bytes.length) ∧ loadProgram bytes s = s)

/-- R194: after `reset()` and `loadProgram`, from any state, the first step runs the instruction the program's first two
bytes form. -/
def Obligations.BootRunsTheProgramsFirstInstruction : Prop :=
  ∀ (hi lo : Byte) (rest : List Byte) (i : Instr) (s : State), rest.length ≤ 3582 →
    decodeWord (hi ++ lo) = .ok i →
    ∃ t, runEvents [.reset, .loadProgram (hi :: lo :: rest)] s = .next t ∧ t.status = .running ∧ t.pc = 0x200 ∧
      step t = exec i t
end

