-- ==== Sys2Proof/Laws/Decode.lean ====
section
/-! SUPPORT. The fields of a word laid out in each format of R63, and a word put together from its fields. -/

namespace Sys2Proof

@[simp] theorem regOfBits_bitsOfReg (r : Reg) : regOfBits (bitsOfReg r) = r := by
  revert r; decide

@[simp] theorem bitsOfReg_regOfBits (b : BitVec 4) : bitsOfReg (regOfBits b) = b := by
  revert b; decide

variable (op : BitVec 4) (x y : Reg) (n : BitVec 4) (nn : Byte) (nnn : Addr)

theorem toNat_bitsOfReg (r : Reg) : (bitsOfReg r).toNat = r.val := by
  revert r; decide

/-- Concatenation as arithmetic: the left part counts in units of the right part's width. -/
theorem toNat_append_eq {m k : Nat} (a : BitVec m) (b : BitVec k) : (a ++ b).toNat = a.toNat * 2 ^ k + b.toNat := by
  rw [BitVec.toNat_append, Nat.shiftLeft_eq, Nat.mul_comm, ← Nat.two_pow_add_eq_or_of_lt b.isLt]

theorem toNat_formatA : (formatA op nnn).toNat = op.toNat * 4096 + nnn.toNat := toNat_append_eq op nnn

theorem toNat_formatXK : (formatXK op x nn).toNat = op.toNat * 4096 + x.val * 256 + nn.toNat := by
  have h := toNat_bitsOfReg x
  simp only [formatXK, toNat_append_eq]
  omega

theorem toNat_formatXYN :
    (formatXYN op x y n).toNat = op.toNat * 4096 + x.val * 256 + y.val * 16 + n.toNat := by
  have h := toNat_bitsOfReg x
  have h' := toNat_bitsOfReg y
  simp only [formatXYN, toNat_append_eq]
  omega

/-! ## Fields as numbers -/

theorem toNat_fieldOp (w : Word) : (fieldOp w).toNat = w.toNat / 4096 := by
  have := w.isLt
  simp only [fieldOp, BitVec.extractLsb'_toNat, Nat.shiftRight_eq_div_pow]
  omega

theorem val_fieldX (w : Word) : (fieldX w).val = w.toNat / 256 % 16 := by
  simp only [fieldX, regOfBits, BitVec.extractLsb'_toNat, Nat.shiftRight_eq_div_pow]

theorem val_fieldY (w : Word) : (fieldY w).val = w.toNat / 16 % 16 := by
  simp only [fieldY, regOfBits, BitVec.extractLsb'_toNat, Nat.shiftRight_eq_div_pow]

theorem toNat_fieldN (w : Word) : (fieldN w).toNat = w.toNat % 16 := by
  simp only [fieldN, BitVec.extractLsb'_toNat, Nat.shiftRight_eq_div_pow]
  omega

theorem toNat_fieldNN (w : Word) : (fieldNN w).toNat = w.toNat % 256 := by
  simp only [fieldNN, BitVec.extractLsb'_toNat, Nat.shiftRight_eq_div_pow]
  omega

theorem toNat_fieldNNN (w : Word) : (fieldNNN w).toNat = w.toNat % 4096 := by
  simp only [fieldNNN, BitVec.extractLsb'_toNat, Nat.shiftRight_eq_div_pow]
  omega

/-! ## Fields of each format -/

@[simp] theorem fieldOp_formatA : fieldOp (formatA op nnn) = op := by
  apply BitVec.eq_of_toNat_eq
  have := nnn.isLt
  rw [toNat_fieldOp, toNat_formatA]; omega

@[simp] theorem fieldNNN_formatA : fieldNNN (formatA op nnn) = nnn := by
  apply BitVec.eq_of_toNat_eq
  have := nnn.isLt
  rw [toNat_fieldNNN, toNat_formatA]; omega

@[simp] theorem fieldOp_formatXK : fieldOp (formatXK op x nn) = op := by
  apply BitVec.eq_of_toNat_eq
  have := nn.isLt
  have := x.isLt
  rw [toNat_fieldOp, toNat_formatXK]; omega

@[simp] theorem fieldX_formatXK : fieldX (formatXK op x nn) = x := by
  apply Fin.ext
  have := nn.isLt
  have := x.isLt
  rw [val_fieldX, toNat_formatXK]; omega

@[simp] theorem fieldNN_formatXK : fieldNN (formatXK op x nn) = nn := by
  apply BitVec.eq_of_toNat_eq
  have := nn.isLt
  rw [toNat_fieldNN, toNat_formatXK]; omega

@[simp] theorem fieldOp_formatXYN : fieldOp (formatXYN op x y n) = op := by
  apply BitVec.eq_of_toNat_eq
  have := n.isLt
  have := x.isLt
  have := y.isLt
  rw [toNat_fieldOp, toNat_formatXYN]; omega

@[simp] theorem fieldX_formatXYN : fieldX (formatXYN op x y n) = x := by
  apply Fin.ext
  have := n.isLt
  have := x.isLt
  have := y.isLt
  rw [val_fieldX, toNat_formatXYN]; omega

@[simp] theorem fieldY_formatXYN : fieldY (formatXYN op x y n) = y := by
  apply Fin.ext
  have := n.isLt
  have := y.isLt
  rw [val_fieldY, toNat_formatXYN]; omega

@[simp] theorem fieldN_formatXYN : fieldN (formatXYN op x y n) = n := by
  apply BitVec.eq_of_toNat_eq
  have := n.isLt
  rw [toNat_fieldN, toNat_formatXYN]; omega

/-! ## A word from its fields -/

theorem formatA_fields (w : Word) : formatA (fieldOp w) (fieldNNN w) = w := by
  apply BitVec.eq_of_toNat_eq
  rw [toNat_formatA, toNat_fieldOp, toNat_fieldNNN]; omega

theorem formatXK_fields (w : Word) : formatXK (fieldOp w) (fieldX w) (fieldNN w) = w := by
  apply BitVec.eq_of_toNat_eq
  rw [toNat_formatXK, toNat_fieldOp, val_fieldX, toNat_fieldNN]; omega

theorem formatXYN_fields (w : Word) : formatXYN (fieldOp w) (fieldX w) (fieldY w) (fieldN w) = w := by
  apply BitVec.eq_of_toNat_eq
  rw [toNat_formatXYN, toNat_fieldOp, val_fieldX, val_fieldY, toNat_fieldN]; omega

/-! ## Bytes of a word -/

theorem toNat_wordOfBytes (hi lo : Byte) : (wordOfBytes hi lo).toNat = hi.toNat * 256 + lo.toNat :=
  toNat_append_eq hi lo

theorem wordOfBytes_bytes (w : Word) : wordOfBytes (highByte w) (lowByte w) = w := by
  apply BitVec.eq_of_toNat_eq
  have hw := w.isLt
  rw [toNat_wordOfBytes]
  simp only [highByte, lowByte, BitVec.extractLsb'_toNat, Nat.shiftRight_eq_div_pow]
  omega

@[simp] theorem tableWord_toNat (w : Word) : tableWord 16 w.toNat = w := by
  apply BitVec.eq_of_toNat_eq
  have := w.isLt
  simp only [tableWord, BitVec.toNat_ofNat]
  omega

/-! ## Bits of a format, and what the masks of R65 keep -/

theorem getLsbD_formatA (op : BitVec 4) (nnn : Addr) (k : Nat) :
    (formatA op nnn).getLsbD k = if k < 12 then nnn.getLsbD k else op.getLsbD (k - 12) := BitVec.getLsbD_append

theorem getLsbD_formatXK (op : BitVec 4) (x : Reg) (nn : Byte) (k : Nat) :
    (formatXK op x nn).getLsbD k =
      if k < 8 then nn.getLsbD k else if k - 8 < 4 then (bitsOfReg x).getLsbD (k - 8) else op.getLsbD (k - 8 - 4) :=
  BitVec.getLsbD_append.trans (by simp only [BitVec.getLsbD_append])

theorem getLsbD_formatXYN (op : BitVec 4) (x y : Reg) (n : BitVec 4) (k : Nat) :
    (formatXYN op x y n).getLsbD k =
      if k < 4 then n.getLsbD k else if k - 4 < 4 then (bitsOfReg y).getLsbD (k - 4) else
        if k - 4 - 4 < 4 then (bitsOfReg x).getLsbD (k - 4 - 4) else op.getLsbD (k - 4 - 4 - 4) :=
  BitVec.getLsbD_append.trans (by
    simp only [BitVec.getLsbD_append])

theorem and_F000 (w : Word) : w &&& 0xF000 = formatA (fieldOp w) 0 := by
  refine BitVec.eq_of_getLsbD_eq fun k hk => ?_
  rw [BitVec.getLsbD_and, getLsbD_formatA]
  interval_cases k <;> simp [fieldOp]

theorem and_F00F (w : Word) : w &&& 0xF00F = formatXYN (fieldOp w) 0 0 (fieldN w) := by
  refine BitVec.eq_of_getLsbD_eq fun k hk => ?_
  rw [BitVec.getLsbD_and, getLsbD_formatXYN]
  interval_cases k <;> simp [fieldOp, fieldN, bitsOfReg]

theorem and_F0FF (w : Word) : w &&& 0xF0FF = formatXK (fieldOp w) 0 (fieldNN w) := by
  refine BitVec.eq_of_getLsbD_eq fun k hk => ?_
  rw [BitVec.getLsbD_and, getLsbD_formatXK]
  interval_cases k <;> simp [fieldOp, fieldNN, bitsOfReg]

theorem decodeGroup_op {w : Word} (h : fieldOp w = 0xF#4) : decodeWord w = decodeGroupF w := by
  unfold decodeWord
  rw [h]
  rfl

end Sys2Proof
end

