-- ==== Sys2Proof/Laws/State.lean ====
section
/-! SUPPORT. One lemma per field per update of State, true by rfl: no later proof unfolds a record update. -/

namespace Sys2Proof.Machine

variable (s : State)

@[simp] theorem setV_v (r : Reg) (b : Byte) : (s.setV r b).v = s.v.set r b := rfl
@[simp] theorem setV_index (r : Reg) (b : Byte) : (s.setV r b).index = s.index := rfl
@[simp] theorem setV_pc (r : Reg) (b : Byte) : (s.setV r b).pc = s.pc := rfl
@[simp] theorem setV_sp (r : Reg) (b : Byte) : (s.setV r b).sp = s.sp := rfl
@[simp] theorem setV_stk (r : Reg) (b : Byte) : (s.setV r b).stk = s.stk := rfl
@[simp] theorem setV_dt (r : Reg) (b : Byte) : (s.setV r b).dt = s.dt := rfl
@[simp] theorem setV_st (r : Reg) (b : Byte) : (s.setV r b).st = s.st := rfl
@[simp] theorem setV_status (r : Reg) (b : Byte) : (s.setV r b).status = s.status := rfl
@[simp] theorem setV_mem (r : Reg) (b : Byte) : (s.setV r b).mem = s.mem := rfl
@[simp] theorem setV_fb (r : Reg) (b : Byte) : (s.setV r b).fb = s.fb := rfl
@[simp] theorem setV_draws (r : Reg) (b : Byte) : (s.setV r b).draws = s.draws := rfl

@[simp] theorem setRegs_v (w : Vector Byte 16) : (s.setRegs w).v = w := rfl
@[simp] theorem setRegs_index (w : Vector Byte 16) : (s.setRegs w).index = s.index := rfl
@[simp] theorem setRegs_pc (w : Vector Byte 16) : (s.setRegs w).pc = s.pc := rfl
@[simp] theorem setRegs_sp (w : Vector Byte 16) : (s.setRegs w).sp = s.sp := rfl
@[simp] theorem setRegs_stk (w : Vector Byte 16) : (s.setRegs w).stk = s.stk := rfl
@[simp] theorem setRegs_dt (w : Vector Byte 16) : (s.setRegs w).dt = s.dt := rfl
@[simp] theorem setRegs_st (w : Vector Byte 16) : (s.setRegs w).st = s.st := rfl
@[simp] theorem setRegs_status (w : Vector Byte 16) : (s.setRegs w).status = s.status := rfl
@[simp] theorem setRegs_mem (w : Vector Byte 16) : (s.setRegs w).mem = s.mem := rfl
@[simp] theorem setRegs_fb (w : Vector Byte 16) : (s.setRegs w).fb = s.fb := rfl
@[simp] theorem setRegs_draws (w : Vector Byte 16) : (s.setRegs w).draws = s.draws := rfl

@[simp] theorem setIndex_v (w : Word) : (s.setIndex w).v = s.v := rfl
@[simp] theorem setIndex_index (w : Word) : (s.setIndex w).index = w := rfl
@[simp] theorem setIndex_pc (w : Word) : (s.setIndex w).pc = s.pc := rfl
@[simp] theorem setIndex_sp (w : Word) : (s.setIndex w).sp = s.sp := rfl
@[simp] theorem setIndex_stk (w : Word) : (s.setIndex w).stk = s.stk := rfl
@[simp] theorem setIndex_dt (w : Word) : (s.setIndex w).dt = s.dt := rfl
@[simp] theorem setIndex_st (w : Word) : (s.setIndex w).st = s.st := rfl
@[simp] theorem setIndex_status (w : Word) : (s.setIndex w).status = s.status := rfl
@[simp] theorem setIndex_mem (w : Word) : (s.setIndex w).mem = s.mem := rfl
@[simp] theorem setIndex_fb (w : Word) : (s.setIndex w).fb = s.fb := rfl
@[simp] theorem setIndex_draws (w : Word) : (s.setIndex w).draws = s.draws := rfl

@[simp] theorem setPc_v (w : Word) : (s.setPc w).v = s.v := rfl
@[simp] theorem setPc_index (w : Word) : (s.setPc w).index = s.index := rfl
@[simp] theorem setPc_pc (w : Word) : (s.setPc w).pc = w := rfl
@[simp] theorem setPc_sp (w : Word) : (s.setPc w).sp = s.sp := rfl
@[simp] theorem setPc_stk (w : Word) : (s.setPc w).stk = s.stk := rfl
@[simp] theorem setPc_dt (w : Word) : (s.setPc w).dt = s.dt := rfl
@[simp] theorem setPc_st (w : Word) : (s.setPc w).st = s.st := rfl
@[simp] theorem setPc_status (w : Word) : (s.setPc w).status = s.status := rfl
@[simp] theorem setPc_mem (w : Word) : (s.setPc w).mem = s.mem := rfl
@[simp] theorem setPc_fb (w : Word) : (s.setPc w).fb = s.fb := rfl
@[simp] theorem setPc_draws (w : Word) : (s.setPc w).draws = s.draws := rfl

@[simp] theorem setStack_v (p : Fin 17) (k : Vector Word 16) : (s.setStack p k).v = s.v := rfl
@[simp] theorem setStack_index (p : Fin 17) (k : Vector Word 16) : (s.setStack p k).index = s.index := rfl
@[simp] theorem setStack_pc (p : Fin 17) (k : Vector Word 16) : (s.setStack p k).pc = s.pc := rfl
@[simp] theorem setStack_sp (p : Fin 17) (k : Vector Word 16) : (s.setStack p k).sp = p := rfl
@[simp] theorem setStack_stk (p : Fin 17) (k : Vector Word 16) : (s.setStack p k).stk = k := rfl
@[simp] theorem setStack_dt (p : Fin 17) (k : Vector Word 16) : (s.setStack p k).dt = s.dt := rfl
@[simp] theorem setStack_st (p : Fin 17) (k : Vector Word 16) : (s.setStack p k).st = s.st := rfl
@[simp] theorem setStack_status (p : Fin 17) (k : Vector Word 16) : (s.setStack p k).status = s.status := rfl
@[simp] theorem setStack_mem (p : Fin 17) (k : Vector Word 16) : (s.setStack p k).mem = s.mem := rfl
@[simp] theorem setStack_fb (p : Fin 17) (k : Vector Word 16) : (s.setStack p k).fb = s.fb := rfl
@[simp] theorem setStack_draws (p : Fin 17) (k : Vector Word 16) : (s.setStack p k).draws = s.draws := rfl

@[simp] theorem setDt_v (b : Byte) : (s.setDt b).v = s.v := rfl
@[simp] theorem setDt_index (b : Byte) : (s.setDt b).index = s.index := rfl
@[simp] theorem setDt_pc (b : Byte) : (s.setDt b).pc = s.pc := rfl
@[simp] theorem setDt_sp (b : Byte) : (s.setDt b).sp = s.sp := rfl
@[simp] theorem setDt_stk (b : Byte) : (s.setDt b).stk = s.stk := rfl
@[simp] theorem setDt_dt (b : Byte) : (s.setDt b).dt = b := rfl
@[simp] theorem setDt_st (b : Byte) : (s.setDt b).st = s.st := rfl
@[simp] theorem setDt_status (b : Byte) : (s.setDt b).status = s.status := rfl
@[simp] theorem setDt_mem (b : Byte) : (s.setDt b).mem = s.mem := rfl
@[simp] theorem setDt_fb (b : Byte) : (s.setDt b).fb = s.fb := rfl
@[simp] theorem setDt_draws (b : Byte) : (s.setDt b).draws = s.draws := rfl

@[simp] theorem setSt_v (b : Byte) : (s.setSt b).v = s.v := rfl
@[simp] theorem setSt_index (b : Byte) : (s.setSt b).index = s.index := rfl
@[simp] theorem setSt_pc (b : Byte) : (s.setSt b).pc = s.pc := rfl
@[simp] theorem setSt_sp (b : Byte) : (s.setSt b).sp = s.sp := rfl
@[simp] theorem setSt_stk (b : Byte) : (s.setSt b).stk = s.stk := rfl
@[simp] theorem setSt_dt (b : Byte) : (s.setSt b).dt = s.dt := rfl
@[simp] theorem setSt_st (b : Byte) : (s.setSt b).st = b := rfl
@[simp] theorem setSt_status (b : Byte) : (s.setSt b).status = s.status := rfl
@[simp] theorem setSt_mem (b : Byte) : (s.setSt b).mem = s.mem := rfl
@[simp] theorem setSt_fb (b : Byte) : (s.setSt b).fb = s.fb := rfl
@[simp] theorem setSt_draws (b : Byte) : (s.setSt b).draws = s.draws := rfl

@[simp] theorem setStatus_v (q : Status) : (s.setStatus q).v = s.v := rfl
@[simp] theorem setStatus_index (q : Status) : (s.setStatus q).index = s.index := rfl
@[simp] theorem setStatus_pc (q : Status) : (s.setStatus q).pc = s.pc := rfl
@[simp] theorem setStatus_sp (q : Status) : (s.setStatus q).sp = s.sp := rfl
@[simp] theorem setStatus_stk (q : Status) : (s.setStatus q).stk = s.stk := rfl
@[simp] theorem setStatus_dt (q : Status) : (s.setStatus q).dt = s.dt := rfl
@[simp] theorem setStatus_st (q : Status) : (s.setStatus q).st = s.st := rfl
@[simp] theorem setStatus_status (q : Status) : (s.setStatus q).status = q := rfl
@[simp] theorem setStatus_mem (q : Status) : (s.setStatus q).mem = s.mem := rfl
@[simp] theorem setStatus_fb (q : Status) : (s.setStatus q).fb = s.fb := rfl
@[simp] theorem setStatus_draws (q : Status) : (s.setStatus q).draws = s.draws := rfl

@[simp] theorem setMem_v (m : Memory) : (s.setMem m).v = s.v := rfl
@[simp] theorem setMem_index (m : Memory) : (s.setMem m).index = s.index := rfl
@[simp] theorem setMem_pc (m : Memory) : (s.setMem m).pc = s.pc := rfl
@[simp] theorem setMem_sp (m : Memory) : (s.setMem m).sp = s.sp := rfl
@[simp] theorem setMem_stk (m : Memory) : (s.setMem m).stk = s.stk := rfl
@[simp] theorem setMem_dt (m : Memory) : (s.setMem m).dt = s.dt := rfl
@[simp] theorem setMem_st (m : Memory) : (s.setMem m).st = s.st := rfl
@[simp] theorem setMem_status (m : Memory) : (s.setMem m).status = s.status := rfl
@[simp] theorem setMem_mem (m : Memory) : (s.setMem m).mem = m := rfl
@[simp] theorem setMem_fb (m : Memory) : (s.setMem m).fb = s.fb := rfl
@[simp] theorem setMem_draws (m : Memory) : (s.setMem m).draws = s.draws := rfl

@[simp] theorem setFb_v (fb : Config.Framebuffer) : (s.setFb fb).v = s.v := rfl
@[simp] theorem setFb_index (fb : Config.Framebuffer) : (s.setFb fb).index = s.index := rfl
@[simp] theorem setFb_pc (fb : Config.Framebuffer) : (s.setFb fb).pc = s.pc := rfl
@[simp] theorem setFb_sp (fb : Config.Framebuffer) : (s.setFb fb).sp = s.sp := rfl
@[simp] theorem setFb_stk (fb : Config.Framebuffer) : (s.setFb fb).stk = s.stk := rfl
@[simp] theorem setFb_dt (fb : Config.Framebuffer) : (s.setFb fb).dt = s.dt := rfl
@[simp] theorem setFb_st (fb : Config.Framebuffer) : (s.setFb fb).st = s.st := rfl
@[simp] theorem setFb_status (fb : Config.Framebuffer) : (s.setFb fb).status = s.status := rfl
@[simp] theorem setFb_mem (fb : Config.Framebuffer) : (s.setFb fb).mem = s.mem := rfl
@[simp] theorem setFb_fb (fb : Config.Framebuffer) : (s.setFb fb).fb = fb := rfl
@[simp] theorem setFb_draws (fb : Config.Framebuffer) : (s.setFb fb).draws = s.draws := rfl

@[simp] theorem nextDraw_v : (s.nextDraw).v = s.v := rfl
@[simp] theorem nextDraw_index : (s.nextDraw).index = s.index := rfl
@[simp] theorem nextDraw_pc : (s.nextDraw).pc = s.pc := rfl
@[simp] theorem nextDraw_sp : (s.nextDraw).sp = s.sp := rfl
@[simp] theorem nextDraw_stk : (s.nextDraw).stk = s.stk := rfl
@[simp] theorem nextDraw_dt : (s.nextDraw).dt = s.dt := rfl
@[simp] theorem nextDraw_st : (s.nextDraw).st = s.st := rfl
@[simp] theorem nextDraw_status : (s.nextDraw).status = s.status := rfl
@[simp] theorem nextDraw_mem : (s.nextDraw).mem = s.mem := rfl
@[simp] theorem nextDraw_fb : (s.nextDraw).fb = s.fb := rfl
@[simp] theorem nextDraw_draws : (s.nextDraw).draws = s.draws + 1 := rfl

@[simp] theorem advance_v : (s.advance).v = s.v := rfl
@[simp] theorem advance_index : (s.advance).index = s.index := rfl
@[simp] theorem advance_pc : (s.advance).pc = s.pc + 2 := rfl
@[simp] theorem advance_sp : (s.advance).sp = s.sp := rfl
@[simp] theorem advance_stk : (s.advance).stk = s.stk := rfl
@[simp] theorem advance_dt : (s.advance).dt = s.dt := rfl
@[simp] theorem advance_st : (s.advance).st = s.st := rfl
@[simp] theorem advance_status : (s.advance).status = s.status := rfl
@[simp] theorem advance_mem : (s.advance).mem = s.mem := rfl
@[simp] theorem advance_fb : (s.advance).fb = s.fb := rfl
@[simp] theorem advance_draws : (s.advance).draws = s.draws := rfl

@[simp] theorem skipIf_v (c : Bool) : (State.skipIf c s).v = s.v := rfl
@[simp] theorem skipIf_index (c : Bool) : (State.skipIf c s).index = s.index := rfl
@[simp] theorem skipIf_pc (c : Bool) : (State.skipIf c s).pc = if c then s.pc + 4 else s.pc + 2 := by
  cases c
  · rfl
  · exact BitVec.add_assoc s.pc 2 2
@[simp] theorem skipIf_sp (c : Bool) : (State.skipIf c s).sp = s.sp := rfl
@[simp] theorem skipIf_stk (c : Bool) : (State.skipIf c s).stk = s.stk := rfl
@[simp] theorem skipIf_dt (c : Bool) : (State.skipIf c s).dt = s.dt := rfl
@[simp] theorem skipIf_st (c : Bool) : (State.skipIf c s).st = s.st := rfl
@[simp] theorem skipIf_status (c : Bool) : (State.skipIf c s).status = s.status := rfl
@[simp] theorem skipIf_mem (c : Bool) : (State.skipIf c s).mem = s.mem := rfl
@[simp] theorem skipIf_fb (c : Bool) : (State.skipIf c s).fb = s.fb := rfl
@[simp] theorem skipIf_draws (c : Bool) : (State.skipIf c s).draws = s.draws := rfl

@[simp] theorem setFlagThenResult_v (x : Reg) (flag : Bool) (b : Byte) : (s.setFlagThenResult x flag b).v = (s.v.set VF (flagByte flag)).set x b := rfl
@[simp] theorem setFlagThenResult_index (x : Reg) (flag : Bool) (b : Byte) : (s.setFlagThenResult x flag b).index = s.index := rfl
@[simp] theorem setFlagThenResult_pc (x : Reg) (flag : Bool) (b : Byte) : (s.setFlagThenResult x flag b).pc = s.pc := rfl
@[simp] theorem setFlagThenResult_sp (x : Reg) (flag : Bool) (b : Byte) : (s.setFlagThenResult x flag b).sp = s.sp := rfl
@[simp] theorem setFlagThenResult_stk (x : Reg) (flag : Bool) (b : Byte) : (s.setFlagThenResult x flag b).stk = s.stk := rfl
@[simp] theorem setFlagThenResult_dt (x : Reg) (flag : Bool) (b : Byte) : (s.setFlagThenResult x flag b).dt = s.dt := rfl
@[simp] theorem setFlagThenResult_st (x : Reg) (flag : Bool) (b : Byte) : (s.setFlagThenResult x flag b).st = s.st := rfl
@[simp] theorem setFlagThenResult_status (x : Reg) (flag : Bool) (b : Byte) : (s.setFlagThenResult x flag b).status = s.status := rfl
@[simp] theorem setFlagThenResult_mem (x : Reg) (flag : Bool) (b : Byte) : (s.setFlagThenResult x flag b).mem = s.mem := rfl
@[simp] theorem setFlagThenResult_fb (x : Reg) (flag : Bool) (b : Byte) : (s.setFlagThenResult x flag b).fb = s.fb := rfl
@[simp] theorem setFlagThenResult_draws (x : Reg) (flag : Bool) (b : Byte) : (s.setFlagThenResult x flag b).draws = s.draws := rfl

@[simp] theorem storeAtIndex_v (bs : List Byte) : (s.storeAtIndex bs).v = s.v := rfl
@[simp] theorem storeAtIndex_index (bs : List Byte) : (s.storeAtIndex bs).index = s.index := rfl
@[simp] theorem storeAtIndex_pc (bs : List Byte) : (s.storeAtIndex bs).pc = s.pc := rfl
@[simp] theorem storeAtIndex_sp (bs : List Byte) : (s.storeAtIndex bs).sp = s.sp := rfl
@[simp] theorem storeAtIndex_stk (bs : List Byte) : (s.storeAtIndex bs).stk = s.stk := rfl
@[simp] theorem storeAtIndex_dt (bs : List Byte) : (s.storeAtIndex bs).dt = s.dt := rfl
@[simp] theorem storeAtIndex_st (bs : List Byte) : (s.storeAtIndex bs).st = s.st := rfl
@[simp] theorem storeAtIndex_status (bs : List Byte) : (s.storeAtIndex bs).status = s.status := rfl
@[simp] theorem storeAtIndex_mem (bs : List Byte) : (s.storeAtIndex bs).mem = writeCells s.mem s.index.toNat bs := rfl
@[simp] theorem storeAtIndex_fb (bs : List Byte) : (s.storeAtIndex bs).fb = s.fb := rfl
@[simp] theorem storeAtIndex_draws (bs : List Byte) : (s.storeAtIndex bs).draws = s.draws := rfl

@[simp] theorem loadRegsUpTo_index (x : Reg) : (s.loadRegsUpTo x).index = s.index := rfl
@[simp] theorem loadRegsUpTo_pc (x : Reg) : (s.loadRegsUpTo x).pc = s.pc := rfl
@[simp] theorem loadRegsUpTo_sp (x : Reg) : (s.loadRegsUpTo x).sp = s.sp := rfl
@[simp] theorem loadRegsUpTo_stk (x : Reg) : (s.loadRegsUpTo x).stk = s.stk := rfl
@[simp] theorem loadRegsUpTo_dt (x : Reg) : (s.loadRegsUpTo x).dt = s.dt := rfl
@[simp] theorem loadRegsUpTo_st (x : Reg) : (s.loadRegsUpTo x).st = s.st := rfl
@[simp] theorem loadRegsUpTo_status (x : Reg) : (s.loadRegsUpTo x).status = s.status := rfl
@[simp] theorem loadRegsUpTo_mem (x : Reg) : (s.loadRegsUpTo x).mem = s.mem := rfl
@[simp] theorem loadRegsUpTo_fb (x : Reg) : (s.loadRegsUpTo x).fb = s.fb := rfl
@[simp] theorem loadRegsUpTo_draws (x : Reg) : (s.loadRegsUpTo x).draws = s.draws := rfl

@[simp] theorem takeFault_status (c : FaultCause) (n : Nat) : (takeFault c n s).status = .faulted c (BitVec.ofNat 17 n) := rfl
@[simp] theorem takeFault_v (c : FaultCause) (n : Nat) : (takeFault c n s).v = s.v := rfl
@[simp] theorem takeFault_index (c : FaultCause) (n : Nat) : (takeFault c n s).index = s.index := rfl
@[simp] theorem takeFault_pc (c : FaultCause) (n : Nat) : (takeFault c n s).pc = s.pc := rfl
@[simp] theorem takeFault_sp (c : FaultCause) (n : Nat) : (takeFault c n s).sp = s.sp := rfl
@[simp] theorem takeFault_stk (c : FaultCause) (n : Nat) : (takeFault c n s).stk = s.stk := rfl
@[simp] theorem takeFault_dt (c : FaultCause) (n : Nat) : (takeFault c n s).dt = s.dt := rfl
@[simp] theorem takeFault_st (c : FaultCause) (n : Nat) : (takeFault c n s).st = s.st := rfl
@[simp] theorem takeFault_mem (c : FaultCause) (n : Nat) : (takeFault c n s).mem = s.mem := rfl
@[simp] theorem takeFault_fb (c : FaultCause) (n : Nat) : (takeFault c n s).fb = s.fb := rfl
@[simp] theorem takeFault_draws (c : FaultCause) (n : Nat) : (takeFault c n s).draws = s.draws := rfl

/-! ## Reading one register and one byte -/

theorem getV_setV (r q : Reg) (b : Byte) : (s.setV r b).getV q = if q = r then b else s.getV q := by
  simp only [State.getV, State.setV, Fin.getElem_fin, Vector.getElem_set, Fin.ext_iff, eq_comm]

@[simp] theorem getV_setV_same (r : Reg) (b : Byte) : (s.setV r b).getV r = b := by simp [getV_setV]

theorem getV_setV_other {r q : Reg} (h : q ≠ r) (b : Byte) : (s.setV r b).getV q = s.getV q := by
  simp [getV_setV, h]

@[simp] theorem readByte_setV (r : Reg) (b : Byte) (a : Nat) : (s.setV r b).readByte a = s.readByte a := rfl
@[simp] theorem readByte_setRegs (w : Vector Byte 16) (a : Nat) : (s.setRegs w).readByte a = s.readByte a := rfl
@[simp] theorem getV_setIndex (w : Word) (q : Reg) : (s.setIndex w).getV q = s.getV q := rfl
@[simp] theorem readByte_setIndex (w : Word) (a : Nat) : (s.setIndex w).readByte a = s.readByte a := rfl
@[simp] theorem getV_setPc (w : Word) (q : Reg) : (s.setPc w).getV q = s.getV q := rfl
@[simp] theorem readByte_setPc (w : Word) (a : Nat) : (s.setPc w).readByte a = s.readByte a := rfl
@[simp] theorem getV_setStack (p : Fin 17) (k : Vector Word 16) (q : Reg) : (s.setStack p k).getV q = s.getV q := rfl
@[simp] theorem readByte_setStack (p : Fin 17) (k : Vector Word 16) (a : Nat) : (s.setStack p k).readByte a = s.readByte a := rfl
@[simp] theorem getV_setDt (b : Byte) (q : Reg) : (s.setDt b).getV q = s.getV q := rfl
@[simp] theorem readByte_setDt (b : Byte) (a : Nat) : (s.setDt b).readByte a = s.readByte a := rfl
@[simp] theorem getV_setSt (b : Byte) (q : Reg) : (s.setSt b).getV q = s.getV q := rfl
@[simp] theorem readByte_setSt (b : Byte) (a : Nat) : (s.setSt b).readByte a = s.readByte a := rfl
@[simp] theorem getV_setStatus (q : Status) (g : Reg) : (s.setStatus q).getV g = s.getV g := rfl
@[simp] theorem readByte_setStatus (q : Status) (a : Nat) : (s.setStatus q).readByte a = s.readByte a := rfl
@[simp] theorem getV_setMem (m : Memory) (q : Reg) : (s.setMem m).getV q = s.getV q := rfl
@[simp] theorem getV_setFb (fb : Config.Framebuffer) (q : Reg) : (s.setFb fb).getV q = s.getV q := rfl
@[simp] theorem readByte_setFb (fb : Config.Framebuffer) (a : Nat) : (s.setFb fb).readByte a = s.readByte a := rfl
@[simp] theorem getV_nextDraw (q : Reg) : (s.nextDraw).getV q = s.getV q := rfl
@[simp] theorem readByte_nextDraw (a : Nat) : (s.nextDraw).readByte a = s.readByte a := rfl
@[simp] theorem getV_advance (q : Reg) : (s.advance).getV q = s.getV q := rfl
@[simp] theorem readByte_advance (a : Nat) : (s.advance).readByte a = s.readByte a := rfl
@[simp] theorem getV_skipIf (c : Bool) (q : Reg) : (State.skipIf c s).getV q = s.getV q := rfl
@[simp] theorem readByte_skipIf (c : Bool) (a : Nat) : (State.skipIf c s).readByte a = s.readByte a := rfl
@[simp] theorem readByte_setFlagThenResult (x : Reg) (flag : Bool) (b : Byte) (a : Nat) : (s.setFlagThenResult x flag b).readByte a = s.readByte a := rfl
@[simp] theorem getV_storeAtIndex (bs : List Byte) (q : Reg) : (s.storeAtIndex bs).getV q = s.getV q := rfl
@[simp] theorem readByte_loadRegsUpTo (x : Reg) (a : Nat) : (s.loadRegsUpTo x).readByte a = s.readByte a := rfl
@[simp] theorem getV_takeFault (c : FaultCause) (n : Nat) (g : Reg) : (takeFault c n s).getV g = s.getV g := rfl
@[simp] theorem readByte_takeFault (c : FaultCause) (n a : Nat) : (takeFault c n s).readByte a = s.readByte a := rfl

theorem getV_setFlagThenResult (x q : Reg) (flag : Bool) (b : Byte) :
    (s.setFlagThenResult x flag b).getV q = if q = x then b else if q = VF then flagByte flag else s.getV q := by
  simp only [State.setFlagThenResult, getV_setV]

theorem getV_loadRegsUpTo (x q : Reg) :
    (s.loadRegsUpTo x).getV q = if q.val ≤ x.val then s.readByte (s.index.toNat + q.val) else s.getV q := by
  simp [State.loadRegsUpTo, State.setRegs, State.getV]

/-- Writes to different registers commute. -/
theorem setV_comm {r x : Reg} (h : r ≠ x) (a b : Byte) : (s.setV r a).setV x b = (s.setV x b).setV r a := by
  have hv : (s.v.set r a).set x b = (s.v.set x b).set r a := Vector.set_comm _ _ fun e => h (Fin.ext e)
  simp only [State.setV, hv]

/-- Two register files that agree register by register are equal. -/
theorem regs_ext {v w : Vector Byte 16} (h : ∀ r : Reg, v[r] = w[r]) : v = w := by
  ext k hk
  have := h ⟨k, hk⟩
  simp only [Fin.getElem_fin] at this
  simp [this]

/-- A register above x keeps its value through the load of V0 to Vx, whatever it is. -/
theorem loadRegsUpTo_setV {r x : Reg} (b : Byte) (h : x < r) :
    (s.setV r b).loadRegsUpTo x = (s.loadRegsUpTo x).setV r b := by
  have hv : ((s.setV r b).loadRegsUpTo x).v = ((s.loadRegsUpTo x).setV r b).v := by
    refine regs_ext fun q => ?_
    have e1 : ((s.setV r b).loadRegsUpTo x).getV q = ((s.loadRegsUpTo x).setV r b).getV q := by
      simp only [getV_loadRegsUpTo, getV_setV, readByte_setV, setV_index]
      by_cases hq : q = r
      · have hx : ¬ q.val ≤ x.val := by rw [hq]; exact Nat.not_le.2 h
        simp only [hx, if_false]
      · simp only [hq, if_false]
    exact e1
  exact congrArg (fun v => s.setRegs v) hv

end Sys2Proof.Machine
end

