-- ==== Sys2Proof/Laws/Memory.lean ====
section
/-! SUPPORT. Laws of MEM: a read after a write, the canonical form kept by every memory operation, and equal reads give
equal lists. -/

namespace Sys2Proof.Machine

/-! ## The canonical form -/

theorem cellsFrom_cons {lo k : Nat} {c : Byte} {m : Memory} :
    cellsFrom lo ((k, c) :: m) = true ↔
      lo ≤ k ∧ k < Config.memSize ∧ c ≠ initialByte k ∧ cellsFrom (k + 1) m = true := by
  simp only [cellsFrom, Bool.and_eq_true, decide_eq_true_eq, and_assoc]

theorem cellsFrom_mono {lo lo' : Nat} (h : lo' ≤ lo) {m : Memory} (hm : cellsFrom lo m = true) :
    cellsFrom lo' m = true := by
  cases m with
  | nil => rfl
  | cons p rest =>
    obtain ⟨k, c⟩ := p
    rw [cellsFrom_cons] at hm ⊢
    exact ⟨by omega, hm.2⟩

/-- Below the first possible address every byte reads as its reset contents. -/
theorem readCell_below {lo : Nat} {m : Memory} (hm : cellsFrom lo m = true) {a : Nat} (h : a < lo) :
    readCell m a = initialByte a := by
  induction m generalizing lo with
  | nil => rfl
  | cons p rest ih =>
    obtain ⟨k, c⟩ := p
    rw [cellsFrom_cons] at hm
    have hk : ¬ k = a := by omega
    simp only [readCell, hk, if_false]
    exact ih hm.2.2.2 (by omega)

/-- Outside the address space nothing is listed. -/
theorem readCell_outside {lo : Nat} {m : Memory} (hm : cellsFrom lo m = true) {a : Nat} (h : Config.memSize ≤ a) :
    readCell m a = initialByte a := by
  induction m generalizing lo with
  | nil => rfl
  | cons p rest ih =>
    obtain ⟨k, c⟩ := p
    rw [cellsFrom_cons] at hm
    have hk : ¬ k = a := by omega
    simp only [readCell, hk, if_false]
    exact ih hm.2.2.2

/-! ## One byte -/

/-- A read after a write: the written byte at its address, every other byte as before. -/
theorem readCell_writeCell {lo : Nat} {m : Memory} (hm : cellsFrom lo m = true) (a : Nat) (b : Byte) (q : Nat) :
    readCell (writeCell m a b) q = if q = a then b else readCell m q := by
  induction m generalizing lo with
  | nil =>
    by_cases hb : b = initialByte a
    · by_cases hq : q = a
      · simp [writeCell, readCell, hb, hq]
      · simp [writeCell, hb, hq]
    · by_cases hq : q = a
      · simp [writeCell, readCell, hb, hq]
      · simp [writeCell, readCell, hb, hq, Ne.symm hq]
  | cons p rest ih =>
    obtain ⟨k, c⟩ := p
    rw [cellsFrom_cons] at hm
    have hrest := hm.2.2.2
    simp only [writeCell]
    split
    · next hka =>
      simp only [readCell, ih hrest]
      by_cases hkq : k = q
      · have : ¬ q = a := by omega
        simp [hkq, this]
      · simp [hkq]
    · next hka =>
      have hbelow : a < k + 1 := by omega
      have hr : readCell rest a = initialByte a := readCell_below hrest hbelow
      by_cases hb : b = initialByte a
      · by_cases hk : k = a
        · by_cases hq : q = a
          · simp [hb, hk, hq, hr]
          · simp [hb, hk, hq, readCell, Ne.symm hq]
        · by_cases hq : q = a
          · simp [hb, hk, hq, readCell, hr]
          · simp [hb, hk, hq]
      · by_cases hk : k = a
        · by_cases hq : q = a
          · simp [hb, hk, hq, readCell]
          · simp [hb, hk, hq, readCell, Ne.symm hq]
        · by_cases hq : q = a
          · simp [hb, hq, readCell]
          · simp [hb, hk, hq, readCell, Ne.symm hq]

/-- Writing one byte of the address space keeps the canonical form. -/
theorem cellsFrom_writeCell {lo : Nat} {m : Memory} (hm : cellsFrom lo m = true) {a : Nat} (b : Byte)
    (hlo : lo ≤ a) (ha : a < Config.memSize) : cellsFrom lo (writeCell m a b) = true := by
  induction m generalizing lo with
  | nil =>
    by_cases hb : b = initialByte a
    · simp [writeCell, hb, cellsFrom]
    · simp only [writeCell, hb, if_false]
      exact cellsFrom_cons.2 ⟨hlo, ha, hb, rfl⟩
  | cons p rest ih =>
    obtain ⟨k, c⟩ := p
    have h := cellsFrom_cons.1 hm
    simp only [writeCell]
    split
    · next hka => exact cellsFrom_cons.2 ⟨h.1, h.2.1, h.2.2.1, ih h.2.2.2 (by omega)⟩
    · next hka =>
      by_cases hk : k = a
      · subst hk
        by_cases hb : b = initialByte k
        · simp only [hb, if_true]
          exact cellsFrom_mono (by omega) h.2.2.2
        · simp only [hb, if_false, if_true]
          exact cellsFrom_cons.2 ⟨hlo, ha, hb, h.2.2.2⟩
      · by_cases hb : b = initialByte a
        · simpa only [hb, hk, if_true, if_false] using hm
        · simp only [hb, hk, if_false]
          exact cellsFrom_cons.2 ⟨hlo, ha, hb, cellsFrom_cons.2 ⟨by omega, h.2⟩⟩

theorem wf_writeCell {m : Memory} (hm : m.wf = true) {a : Nat} (ha : a < Config.memSize) (b : Byte) :
    (writeCell m a b).wf = true := cellsFrom_writeCell hm b (Nat.zero_le a) ha

/-! ## Consecutive bytes -/

theorem wf_writeCells {m : Memory} (hm : m.wf = true) {a : Nat} {bs : List Byte}
    (ha : a + bs.length ≤ Config.memSize) : (writeCells m a bs).wf = true := by
  induction bs generalizing m a with
  | nil => exact hm
  | cons b bs ih =>
    simp only [List.length_cons] at ha
    exact ih (wf_writeCell hm (by omega) b) (by omega)

/-- Reading after consecutive writes: byte `q - a` of the list inside the block, unchanged outside it. -/
theorem readCell_writeCells {m : Memory} (hm : m.wf = true) {a : Nat} {bs : List Byte}
    (ha : a + bs.length ≤ Config.memSize) (q : Nat) :
    readCell (writeCells m a bs) q = if a ≤ q ∧ q < a + bs.length then bs.getD (q - a) 0 else readCell m q := by
  induction bs generalizing m a with
  | nil =>
    have : ¬ (a ≤ q ∧ q < a + ([] : List Byte).length) := by simp only [List.length_nil]; omega
    simp only [writeCells, this, if_false]
  | cons b bs ih =>
    simp only [List.length_cons] at ha
    simp only [writeCells]
    rw [ih (wf_writeCell hm (by omega) b) (by omega), readCell_writeCell hm, List.length_cons]
    by_cases hq : q = a
    · subst hq
      have h1 : ¬ (q + 1 ≤ q ∧ q < q + 1 + bs.length) := by omega
      have h2 : q ≤ q ∧ q < q + (bs.length + 1) := by omega
      rw [if_neg h1, if_pos rfl, if_pos h2, Nat.sub_self]
      rfl
    · by_cases hin : a + 1 ≤ q ∧ q < a + 1 + bs.length
      · have h2 : a ≤ q ∧ q < a + (bs.length + 1) := by omega
        rw [if_pos hin, if_pos h2]
        have : q - a = (q - (a + 1)) + 1 := by omega
        rw [this, List.getD_cons_succ]
      · have h2 : ¬ (a ≤ q ∧ q < a + (bs.length + 1)) := by omega
        rw [if_neg hin, if_neg h2, if_neg hq]

@[simp] theorem length_readCells (m : Memory) (a n : Nat) : (readCells m a n).length = n := by
  induction n generalizing a with
  | zero => rfl
  | succ n ih => simp [readCells, ih]

theorem getElem_readCells (m : Memory) (a n j : Nat) (h : j < (readCells m a n).length) :
    (readCells m a n)[j] = readCell m (a + j) := by
  induction n generalizing a j with
  | zero => simp [readCells] at h
  | succ n ih =>
    cases j with
    | zero => rfl
    | succ j =>
      simp only [readCells, List.getElem_cons_succ, ih]
      congr 1
      omega

/-! ## Equal memories are equal lists -/

theorem readCell_head {lo k : Nat} {c : Byte} {m : Memory} (h : cellsFrom lo ((k, c) :: m) = true) :
    readCell ((k, c) :: m) k ≠ initialByte k := by
  rw [cellsFrom_cons] at h
  simpa [readCell] using h.2.2.1

/-- Two canonical memories that list from `lo` on and read alike are the same list. -/
theorem cells_ext {lo : Nat} {m m' : Memory} (hm : cellsFrom lo m = true) (hm' : cellsFrom lo m' = true)
    (h : ∀ a, readCell m a = readCell m' a) : m = m' := by
  induction m generalizing lo m' with
  | nil =>
    cases m' with
    | nil => rfl
    | cons p rest => exact absurd (h p.1).symm (readCell_head hm')
  | cons p rest ih =>
    obtain ⟨k, c⟩ := p
    cases m' with
    | nil => exact absurd (h k) (readCell_head hm)
    | cons p' rest' =>
      obtain ⟨k', c'⟩ := p'
      have hc := cellsFrom_cons.1 hm
      have hc' := cellsFrom_cons.1 hm'
      have hk : k = k' := by
        rcases Nat.lt_trichotomy k k' with hlt | heq | hgt
        · refine absurd ?_ (readCell_head hm)
          rw [h k]
          exact readCell_below (cellsFrom_cons.2 ⟨Nat.le_refl k', hc'.2⟩) hlt
        · exact heq
        · refine absurd ?_ (readCell_head hm')
          rw [← h k']
          exact readCell_below (cellsFrom_cons.2 ⟨Nat.le_refl k, hc.2⟩) hgt
      subst hk
      have hcc : c = c' := by simpa [readCell] using h k
      subst hcc
      have hrest : rest = rest' := by
        refine ih hc.2.2.2 hc'.2.2.2 fun a => ?_
        by_cases ha : a < k + 1
        · rw [readCell_below hc.2.2.2 ha, readCell_below hc'.2.2.2 ha]
        · have := h a
          have hk : ¬ k = a := by omega
          simpa only [readCell, hk, if_false] using this
      rw [hrest]

end Sys2Proof.Machine
end

