-- ==== Sys2Proof/Laws/Ops.lean ====
section
/-! SUPPORT. One lemma per shared operation that says everything it can do; the provers cite these instead of
unfolding the operation. -/

namespace Sys2Proof.Machine

variable (s : State)

/-! ## Memory access -/

theorem blockInRange_iff (base n : Nat) : blockInRange base n = true ↔ n = 0 ∨ base + n ≤ 4096 := by
  simp [blockInRange, Config.memSize]

/-- A block access that is in range is the effect and nothing else. -/
theorem withBlock_inRange {n : Nat} {s : State} (h : n = 0 ∨ s.index.toNat + n ≤ 4096) (t : State) :
    withBlock n s t = .next t := by
  simp [withBlock, (blockInRange_iff _ _).2 h]

/-- A block access that is out of range is the fault and nothing else. -/
theorem withBlock_outOfRange {n : Nat} {s : State} (hn : n ≠ 0) (h : 4096 < s.index.toNat + n) (t : State) :
    withBlock n s t = .next (takeFault .addressError (max s.index.toNat 4096) s) := by
  have : blockInRange s.index.toNat n = false := by
    rw [← Bool.not_eq_true, blockInRange_iff]
    omega
  simp [withBlock, this]

/-- Everything `withBlock` can do. -/
theorem withBlock_cases (n : Nat) (s t : State) :
    ((n = 0 ∨ s.index.toNat + n ≤ 4096) ∧ withBlock n s t = .next t) ∨
    (n ≠ 0 ∧ 4096 < s.index.toNat + n ∧
      withBlock n s t = .next (takeFault .addressError (max s.index.toNat 4096) s)) := by
  by_cases h : n = 0 ∨ s.index.toNat + n ≤ 4096
  · exact .inl ⟨h, withBlock_inRange h t⟩
  · rw [not_or] at h
    exact .inr ⟨h.1, by omega, withBlock_outOfRange h.1 (by omega) t⟩

/-- A fetch at PC ≤ 4094 reads the two bytes at PC and PC + 1, high byte first. -/
theorem fetchWord_inRange {s : State} (h : s.pc.toNat ≤ 4094) :
    fetchWord s = .ok (wordOfBytes (s.readByte s.pc.toNat) (s.readByte (s.pc.toNat + 1))) := by
  have h1 : s.pc.toNat < Config.memSize := by simp only [Config.memSize]; omega
  have h2 : s.pc.toNat + 1 < Config.memSize := by simp only [Config.memSize]; omega
  simp only [fetchWord, memRead, h1, h2, if_true]

/-- A fetch at PC > 4094 meets the lowest address outside the memory. -/
theorem fetchWord_outOfRange {s : State} (h : 4094 < s.pc.toNat) : fetchWord s = .error (max s.pc.toNat 4096) := by
  by_cases h1 : s.pc.toNat < Config.memSize
  · have h2 : ¬ s.pc.toNat + 1 < Config.memSize := by simp only [Config.memSize] at *; omega
    simp only [fetchWord, memRead, h1, h2, if_true, if_false]
    simp only [Config.memSize] at *
    congr 1
    omega
  · simp only [fetchWord, memRead, h1, if_false]
    simp only [Config.memSize] at *
    congr 1
    omega

@[simp] theorem length_bytesAtIndex (n : Nat) : (s.bytesAtIndex n).length = n := by simp [State.bytesAtIndex]

theorem getElem_bytesAtIndex (n j : Nat) (h : j < (s.bytesAtIndex n).length) :
    (s.bytesAtIndex n)[j] = s.readByte (s.index.toNat + j) := by
  simp only [State.bytesAtIndex, getElem_readCells, State.readByte]

@[simp] theorem length_regsUpTo (x : Reg) : (s.regsUpTo x).length = x.val + 1 := by
  have := x.isLt
  simp only [State.regsUpTo, List.length_take, Vector.length_toList]
  omega

theorem getD_regsUpTo (x r : Reg) (h : r.val ≤ x.val) : (s.regsUpTo x).getD r.val 0 = s.getV r := by
  have h1 : r.val < x.val + 1 := by omega
  simp [State.regsUpTo, State.getV, List.getD_eq_getElem?_getD, h1]

/-- A register above x is not among those Fx55 stores. -/
theorem regsUpTo_setV {r x : Reg} (b : Byte) (h : x < r) : (s.setV r b).regsUpTo x = s.regsUpTo x := by
  simp only [State.regsUpTo, setV_v, Vector.toList_set]
  exact List.take_set_of_le h

@[simp] theorem length_bcdDigits (b : Byte) : (bcdDigits b).length = 3 := rfl

/-- The bytes a store at I leaves: the stored ones inside the block, every other byte as before. -/
theorem readByte_storeAtIndex_block {s : State} (hm : s.mem.wf = true) {bs : List Byte}
    (h : s.index.toNat + bs.length ≤ 4096) (a : Nat) :
    (s.storeAtIndex bs).readByte a =
      if s.index.toNat ≤ a ∧ a < s.index.toNat + bs.length then bs.getD (a - s.index.toNat) 0 else s.readByte a := by
  simpa only [State.readByte, storeAtIndex_mem] using readCell_writeCells hm h a

/-! ## The call stack -/

theorem push_room {s : State} (a : Word) (h : s.sp.val < 16) :
    push a s = some (s.setStack ⟨s.sp.val + 1, Nat.succ_lt_succ h⟩ (s.stk.set s.sp.val a h)) := by
  simp only [push, Config.stackDepth, h, dite_true]

theorem push_full {s : State} (a : Word) (h : s.sp.val = 16) : push a s = none := by
  simp [push, Config.stackDepth, h]

theorem pop_some {s : State} (h : 0 < s.sp.val) :
    pop s = some (s.stk[s.sp.val - 1]'(by have := s.sp.isLt; omega),
      s.setStack ⟨s.sp.val - 1, by have := s.sp.isLt; omega⟩ s.stk) := by
  simp only [pop, h, dite_true]

theorem pop_none {s : State} (h : s.sp.val = 0) : pop s = none := by
  simp [pop, h]

/-- Everything RET can do. -/
theorem execRet_cases (s : State) :
    (s.sp.val = 0 ∧ execRet s = .next (takeFault .stackUnderflow s.pc.toNat s)) ∨
    (∃ _ : 0 < s.sp.val, execRet s = .next
      ((s.setStack ⟨s.sp.val - 1, by have := s.sp.isLt; omega⟩ s.stk).setPc
        (s.stk[s.sp.val - 1]'(by have := s.sp.isLt; omega)))) := by
  by_cases h : s.sp.val = 0
  · exact .inl ⟨h, by rw [execRet, pop_none h]⟩
  · exact .inr ⟨by omega, by rw [execRet, pop_some (by omega)]⟩

/-- Everything CALL can do. -/
theorem execCall_cases (nnn : Addr) (s : State) :
    (s.sp.val = 16 ∧ execCall nnn s = .next (takeFault .stackOverflow s.pc.toNat s)) ∨
    (∃ h : s.sp.val < 16, execCall nnn s = .next
      ((s.setStack ⟨s.sp.val + 1, Nat.succ_lt_succ h⟩ (s.stk.set s.sp.val s.npc h)).setPc (addrWord nnn))) := by
  by_cases h : s.sp.val = 16
  · exact .inl ⟨h, by rw [execCall, push_full _ h]⟩
  · have := s.sp.isLt
    exact .inr ⟨by omega, by rw [execCall, push_room _ (by omega)]⟩

/-! ## Flags and results, as unsigned integers -/

theorem toNat_addResult (a b : Byte) : (addResult a b).toNat = (a.toNat + b.toNat) % 256 := by
  simp [addResult]

theorem toNat_subResult (a b : Byte) : ((subResult a b).toNat : Int) = ((a.toNat : Int) - b.toNat) % 256 := by
  have ha := a.isLt
  have hb := b.isLt
  simp only [subResult, BitVec.toNat_ofInt]
  omega

theorem toNat_shrResult (a : Byte) : (shrResult a).toNat = a.toNat / 2 := by
  have := a.isLt
  simp only [shrResult, BitVec.toNat_ofNat]
  omega

theorem toNat_shlResult (a : Byte) : (shlResult a).toNat = 2 * a.toNat % 256 := by
  simp [shlResult]

theorem shrFlag_iff (a : Byte) : shrFlag a = true ↔ a.toNat % 2 = 1 := by
  simp [shrFlag, BitVec.getLsbD, Nat.testBit_zero]

theorem shlFlag_iff (a : Byte) : shlFlag a = true ↔ 128 ≤ a.toNat := by
  have := a.isLt
  simp only [shlFlag, BitVec.getLsbD, Nat.testBit, Nat.shiftRight_eq_div_pow, Nat.one_and_eq_mod_two, bne_iff_ne]
  omega

theorem toNat_addrWord (nnn : Addr) : (addrWord nnn).toNat = nnn.toNat := by
  have := nnn.isLt
  simp only [addrWord, BitVec.toNat_setWidth]
  omega

theorem toNat_jumpTarget (nnn : Addr) (b : Byte) : (jumpTarget nnn b).toNat = nnn.toNat + b.toNat := by
  have := nnn.isLt
  have := b.isLt
  simp only [jumpTarget, BitVec.toNat_ofNat]
  omega

theorem toNat_indexSum (i : Word) (b : Byte) : (indexSum i b).toNat = (i.toNat + b.toNat) % 65536 := by
  simp [indexSum, Config.indexMask12]

theorem toNat_glyphAddress (b : Byte) : (glyphAddress b).toNat = 5 * b.toNat := by
  have := b.isLt
  simp only [glyphAddress, BitVec.toNat_ofNat]
  omega

theorem flagByte_eq (c : Bool) : flagByte c = if c = true then 1 else 0 := rfl

end Sys2Proof.Machine
end

