-- ==== Sys2Proof/Laws/Display.lean ====
section
/-! SUPPORT. Laws of the display adapter and of the sprite: what one toggle does to one pixel, what a list of distinct
calls does, and which calls a sprite makes. -/

namespace Sys2Proof.Machine

open Sys2Proof.Config (Framebuffer displayW displayH)

/-- One toggle changes exactly the pixel it names. -/
theorem pixelAt_togglePixel (fb : Framebuffer) (px py cx cy : Nat) :
    pixelAt (togglePixel fb px py) cx cy =
      (pixelAt fb cx cy ^^ decide (cx % displayW = px % displayW ∧ cy % displayH = py % displayH)) := by
  have hx : cx % displayW < displayW := Nat.mod_lt _ (by decide)
  by_cases hy : cy % displayH = py % displayH
  · simp only [pixelAt, togglePixel, hy, Vector.getElem_set_self, BitVec.getLsbD_xor, BitVec.getLsbD_twoPow, and_true]
    congr 1
    by_cases hxx : cx % displayW = px % displayW
    · simp [← hxx, hx]
    · simp [hxx, Ne.symm hxx]
  · simp [pixelAt, togglePixel, hy, Vector.getElem_set_ne _ _ (Ne.symm hy)]

@[simp] theorem pixelAt_clearDisplay (cx cy : Nat) : pixelAt clearDisplay cx cy = false := by
  simp [pixelAt, clearDisplay]

/-- Two grids that agree pixel by pixel are equal. -/
theorem framebuffer_ext {f g : Framebuffer} (h : ∀ cx cy, cx < displayW → cy < displayH → pixelAt f cx cy = pixelAt g cx cy) :
    f = g := by
  refine Vector.ext fun cy hy => BitVec.eq_of_getLsbD_eq fun cx hx => ?_
  have := h cx cy hx hy
  simpa only [pixelAt, Nat.mod_eq_of_lt hx, Nat.mod_eq_of_lt hy] using this

/-- Coordinates already reduced. -/
def onDisplay (ps : List (Nat × Nat)) : Prop := ∀ p ∈ ps, p.1 < displayW ∧ p.2 < displayH

/-- Distinct calls toggle exactly their pixels (R133(a)). -/
theorem pixelAt_drawCalls {ps : List (Nat × Nat)} (hd : ps.Nodup) (hr : onDisplay ps) (fb : Framebuffer) {cx cy : Nat}
    (hx : cx < displayW) (hy : cy < displayH) :
    pixelAt (drawCalls fb ps).1 cx cy = (pixelAt fb cx cy ^^ decide ((cx, cy) ∈ ps)) := by
  induction ps generalizing fb with
  | nil => simp [drawCalls]
  | cons p ps ih =>
    have hp := hr p (List.mem_cons_self ..)
    rw [List.nodup_cons] at hd
    simp only [drawCalls, setPixel]
    rw [ih hd.2 (fun q hq => hr q (List.mem_cons_of_mem _ hq)), pixelAt_togglePixel]
    rw [Nat.mod_eq_of_lt hx, Nat.mod_eq_of_lt hy, Nat.mod_eq_of_lt hp.1, Nat.mod_eq_of_lt hp.2]
    by_cases hpc : cx = p.1 ∧ cy = p.2
    · simp [hpc.1, hpc.2, hd.1]
    · have hm : ¬ (cx, cy) = p := fun h => hpc ⟨congrArg Prod.fst h, congrArg Prod.snd h⟩
      simp [hpc, hm]

/-- Distinct calls report a collision exactly when one of their pixels was set (R133(b)). -/
theorem drawCalls_collision {ps : List (Nat × Nat)} (hd : ps.Nodup) (hr : onDisplay ps) (fb : Framebuffer) :
    (drawCalls fb ps).2 = true ↔ ∃ p ∈ ps, pixelAt fb p.1 p.2 = true := by
  induction ps generalizing fb with
  | nil => simp [drawCalls]
  | cons p ps ih =>
    have hp := hr p (List.mem_cons_self ..)
    rw [List.nodup_cons] at hd
    simp only [drawCalls, setPixel, Bool.or_eq_true, List.mem_cons, exists_eq_or_imp]
    rw [ih hd.2 (fun q hq => hr q (List.mem_cons_of_mem _ hq))]
    refine or_congr Iff.rfl (exists_congr fun q => and_congr_right fun hq => ?_)
    have hq' := hr q (List.mem_cons_of_mem _ hq)
    have hne : ¬ (q.1 = p.1 ∧ q.2 = p.2) := fun h => hd.1 (Prod.ext h.1 h.2 ▸ hq)
    rw [pixelAt_togglePixel, Nat.mod_eq_of_lt hq'.1, Nat.mod_eq_of_lt hq'.2, Nat.mod_eq_of_lt hp.1,
      Nat.mod_eq_of_lt hp.2]
    simp [hne]

/-! ## The calls of a sprite -/

theorem mem_rowCalls {vx vy r : Nat} {row : Byte} {p : Nat × Nat} :
    p ∈ rowCalls vx vy r row ↔
      ∃ c, c < 8 ∧ row.getLsbD (7 - c) = true ∧ p = ((vx + c) % displayW, (vy + r) % displayH) := by
  simp only [rowCalls, List.mem_map, List.mem_filter, List.mem_range, and_assoc, eq_comm]

theorem mem_spriteCallsFrom {vx vy r0 : Nat} {rows : List Byte} {p : Nat × Nat} :
    p ∈ spriteCallsFrom vx vy r0 rows ↔
      ∃ r c, ∃ h : r < rows.length, c < 8 ∧ rows[r].getLsbD (7 - c) = true ∧
        p = ((vx + c) % displayW, (vy + (r0 + r)) % displayH) := by
  induction rows generalizing r0 with
  | nil => simp [spriteCallsFrom]
  | cons row rows ih =>
    simp only [spriteCallsFrom, List.mem_append, mem_rowCalls, ih]
    constructor
    · rintro (⟨c, hc, hb, rfl⟩ | ⟨r, c, h, hc, hb, rfl⟩)
      · exact ⟨0, c, by simp, hc, hb, rfl⟩
      · exact ⟨r + 1, c, by simpa using h, hc, by simpa using hb, by rw [Nat.add_right_comm r0 1 r]; rfl⟩
    · rintro ⟨r, c, h, hc, hb, rfl⟩
      cases r with
      | zero => exact .inl ⟨c, hc, hb, rfl⟩
      | succ r =>
        exact .inr ⟨r, c, by simpa using h, hc, by simpa using hb, by rw [Nat.add_right_comm r0 1 r]; rfl⟩

theorem onDisplay_spriteCallsFrom (vx vy r0 : Nat) (rows : List Byte) : onDisplay (spriteCallsFrom vx vy r0 rows) := by
  intro p hp
  obtain ⟨r, c, h, hc, hb, rfl⟩ := mem_spriteCallsFrom.1 hp
  exact ⟨Nat.mod_lt _ (by decide), Nat.mod_lt _ (by decide)⟩

/-- One row's calls hit distinct pixels: the display is at least 8 wide (R133). -/
theorem nodup_rowCalls (vx vy r : Nat) (row : Byte) : (rowCalls vx vy r row).Nodup := by
  unfold rowCalls
  refine List.Nodup.map_on ?_ (List.Nodup.filter _ List.nodup_range)
  intro a ha b hb hab
  have h1 := (List.mem_filter.1 ha).1
  have h2 := (List.mem_filter.1 hb).1
  rw [List.mem_range] at h1 h2
  have := congrArg Prod.fst hab
  simp only [displayW] at this
  omega

/-- A sprite's calls hit distinct pixels: the display is at least as high as the sprite (R133). -/
theorem nodup_spriteCallsFrom (vx vy r0 : Nat) (rows : List Byte) (h : rows.length ≤ displayH) :
    (spriteCallsFrom vx vy r0 rows).Nodup := by
  induction rows generalizing r0 with
  | nil => exact List.nodup_nil
  | cons row rows ih =>
    simp only [List.length_cons] at h
    refine List.Nodup.append (nodup_rowCalls vx vy r0 row) (ih (r0 + 1) (by omega)) ?_
    intro p hp hq
    obtain ⟨c, -, -, rfl⟩ := mem_rowCalls.1 hp
    obtain ⟨r, c', hr, -, -, heq⟩ := mem_spriteCallsFrom.1 hq
    have := congrArg Prod.snd heq
    simp only [displayH] at this h
    omega

end Sys2Proof.Machine
end

