-- ==== Sys2Proof/Laws/PerInstr.lean ====
section
/-! SUPPORT. Per instruction: the decoder reads back the word the encoder writes, every operand included. -/

namespace Sys2Proof.Laws.RoundTrip

/-- A well-formed instruction's word decodes to it. -/
def Statement (i : Instr) : Prop := i.wf = true → decodeWord (encode i) = .ok i

theorem cls : Statement .cls := fun _ => rfl

theorem ret : Statement .ret := fun _ => rfl

theorem jp (nnn : Addr) : Statement (.jp nnn) := fun _ => by simp [encode, decodeWord]

theorem call (nnn : Addr) : Statement (.call nnn) := fun _ => by simp [encode, decodeWord]

theorem seImm (x : Reg) (nn : Byte) : Statement (.seImm x nn) := fun _ => by simp [encode, decodeWord]

theorem sneImm (x : Reg) (nn : Byte) : Statement (.sneImm x nn) := fun _ => by simp [encode, decodeWord]

theorem seReg (x : Reg) (y : Reg) : Statement (.seReg x y) := fun _ => by simp [encode, decodeWord]

theorem ldImm (x : Reg) (nn : Byte) : Statement (.ldImm x nn) := fun _ => by simp [encode, decodeWord]

theorem addImm (x : Reg) (nn : Byte) : Statement (.addImm x nn) := fun _ => by simp [encode, decodeWord]

theorem ldReg (x : Reg) (y : Reg) : Statement (.ldReg x y) := fun _ => by simp [encode, decodeWord, decodeGroup8]

theorem orReg (x : Reg) (y : Reg) : Statement (.orReg x y) := fun _ => by simp [encode, decodeWord, decodeGroup8]

theorem andReg (x : Reg) (y : Reg) : Statement (.andReg x y) := fun _ => by simp [encode, decodeWord, decodeGroup8]

theorem xorReg (x : Reg) (y : Reg) : Statement (.xorReg x y) := fun _ => by simp [encode, decodeWord, decodeGroup8]

theorem addReg (x : Reg) (y : Reg) : Statement (.addReg x y) := fun _ => by simp [encode, decodeWord, decodeGroup8]

theorem subReg (x : Reg) (y : Reg) : Statement (.subReg x y) := fun _ => by simp [encode, decodeWord, decodeGroup8]

theorem shr (x : Reg) (y : Reg) : Statement (.shr x y) := fun _ => by simp [encode, decodeWord, decodeGroup8]

theorem subnReg (x : Reg) (y : Reg) : Statement (.subnReg x y) := fun _ => by simp [encode, decodeWord, decodeGroup8]

theorem shl (x : Reg) (y : Reg) : Statement (.shl x y) := fun _ => by simp [encode, decodeWord, decodeGroup8]

theorem sneReg (x : Reg) (y : Reg) : Statement (.sneReg x y) := fun _ => by simp [encode, decodeWord]

theorem ldI (nnn : Addr) : Statement (.ldI nnn) := fun _ => by simp [encode, decodeWord]

theorem jpV0 (nnn : Addr) : Statement (.jpV0 nnn) := fun _ => by simp [encode, decodeWord]

theorem rnd (x : Reg) (nn : Byte) : Statement (.rnd x nn) := fun _ => by simp [encode, decodeWord]

theorem drw (x : Reg) (y : Reg) (n : Nat) : Statement (.drw x y n) := by
  intro h
  have hn : n < 16 := by simpa [Instr.wf] using h
  have : n % 16 = n := Nat.mod_eq_of_lt hn
  simp [encode, decodeWord, this]

theorem skp (x : Reg) : Statement (.skp x) := fun _ => by simp [encode, decodeWord, decodeGroupE]

theorem sknp (x : Reg) : Statement (.sknp x) := fun _ => by simp [encode, decodeWord, decodeGroupE]

theorem ldVxDT (x : Reg) : Statement (.ldVxDT x) := fun _ => by simp [encode, decodeGroup_op, decodeGroupF]

theorem ldVxK (x : Reg) : Statement (.ldVxK x) := fun _ => by simp [encode, decodeGroup_op, decodeGroupF]

theorem ldDTVx (x : Reg) : Statement (.ldDTVx x) := fun _ => by simp [encode, decodeGroup_op, decodeGroupF]

theorem ldSTVx (x : Reg) : Statement (.ldSTVx x) := fun _ => by simp [encode, decodeGroup_op, decodeGroupF]

theorem addIVx (x : Reg) : Statement (.addIVx x) := fun _ => by simp [encode, decodeGroup_op, decodeGroupF]

theorem ldFVx (x : Reg) : Statement (.ldFVx x) := fun _ => by simp [encode, decodeGroup_op, decodeGroupF]

theorem ldBVx (x : Reg) : Statement (.ldBVx x) := fun _ => by simp [encode, decodeGroup_op, decodeGroupF]

theorem ldMemVx (x : Reg) : Statement (.ldMemVx x) := fun _ => by simp [encode, decodeGroup_op, decodeGroupF]

theorem ldVxMem (x : Reg) : Statement (.ldVxMem x) := fun _ => by simp [encode, decodeGroup_op, decodeGroupF]

end Sys2Proof.Laws.RoundTrip
end

