-- ==== Sys2Proof/Tests/Slice0.lean ====
section
/-! SUPPORT. The model's own tests: what WellFormed refuses, every constructor's word written out from its encoding in
spec/opcode_table.json, one-step vectors of spec/95_test_vectors.md (their ids are cited), events, and for every
obligation with hypotheses a witness that meets them together. -/

namespace Sys2Proof.Tests

open Sys2Proof Sys2Proof.Machine
open Sys2Proof.Config (displayW displayH)

/-! ## Helpers -/

/-- The reset state with a clear display, so that every field is a value (FB_INIT is free). -/
def clean : State := { State.reset with fb := clearDisplay }

/-- Register overrides. -/
def withRegs (s : State) (l : List (Reg × Byte)) : State := l.foldl (fun t p => t.setV p.1 p.2) s

/-- The state a step reaches, if it answers one. -/
def nextOf : Result → Option State
  | .next t => some t
  | .fault _ => none
  | .refused _ => none

/-- One step of the word `w`, placed at PC in memory order. -/
def runWord (w : Word) (s : State) : Option State := nextOf (step (placeWord s w))

/-- A stack of `n` return addresses, each `a`. -/
def withStack (s : State) (n : Fin 17) (a : Word) : State := s.setStack n (Vector.replicate 16 a)

/-- V0 to VF = A0 to AF (TI21). -/
def sixteenRegs : State := clean.setRegs (Vector.ofFn fun r : Fin 16 => 0xA0 + BitVec.ofNat 8 r.val)

/-! ## WellFormed -/

/-- An ill-formed term: there is no 16-row sprite (R62, R132). -/
theorem test_wf_refuses_drw_16 : Instr.wf (.drw 0 0 16) = false := by decide

theorem test_wf_accepts_drw_15 : Instr.wf (.drw 0 0 15) = true := by decide

/-! ## Decoding: one word for every constructor, its bits as opcode_table.json writes the encoding -/

theorem test_decode_cls : decodeWord 0b0000000011100000 = .ok .cls := by decide

theorem test_decode_ret : decodeWord 0b0000000011101110 = .ok .ret := by decide

theorem test_decode_jp :
    decodeWord 0b0001101010111100 = .ok (.jp 0xABC) ∧
    decodeWord 0b0001111111111111 = .ok (.jp 0xFFF) := by
  decide

theorem test_decode_call :
    decodeWord 0b0010101010111100 = .ok (.call 0xABC) ∧
    decodeWord 0b0010000000000000 = .ok (.call 0) := by
  decide

theorem test_decode_seImm : decodeWord 0b0011101001000010 = .ok (.seImm 10 0x42) := by decide

theorem test_decode_sneImm : decodeWord 0b0100101001000010 = .ok (.sneImm 10 0x42) := by decide

theorem test_decode_seReg : decodeWord 0b0101000100100000 = .ok (.seReg 1 2) := by decide

theorem test_decode_ldImm : decodeWord 0b0110101011111111 = .ok (.ldImm 10 0xFF) := by decide

theorem test_decode_addImm : decodeWord 0b0111001100000101 = .ok (.addImm 3 5) := by decide

theorem test_decode_ldReg : decodeWord 0b1000000100100000 = .ok (.ldReg 1 2) := by decide

theorem test_decode_orReg : decodeWord 0b1000000100100001 = .ok (.orReg 1 2) := by decide

theorem test_decode_andReg : decodeWord 0b1000000100100010 = .ok (.andReg 1 2) := by decide

theorem test_decode_xorReg : decodeWord 0b1000000100100011 = .ok (.xorReg 1 2) := by decide

theorem test_decode_addReg : decodeWord 0b1000111100010100 = .ok (.addReg 15 1) := by decide

theorem test_decode_subReg : decodeWord 0b1000000100100101 = .ok (.subReg 1 2) := by decide

theorem test_decode_shr :
    decodeWord 0b1000000100000110 = .ok (.shr 1 0) ∧
    decodeWord 0b1000000111110110 = .ok (.shr 1 15) := by
  decide

theorem test_decode_subnReg : decodeWord 0b1000000100100111 = .ok (.subnReg 1 2) := by decide

theorem test_decode_shl :
    decodeWord 0b1000000100001110 = .ok (.shl 1 0) ∧
    decodeWord 0b1000000111111110 = .ok (.shl 1 15) := by
  decide

theorem test_decode_sneReg : decodeWord 0b1001000100100000 = .ok (.sneReg 1 2) := by decide

theorem test_decode_ldI : decodeWord 0b1010001011110000 = .ok (.ldI 0x2F0) := by decide

theorem test_decode_jpV0 : decodeWord 0b1011001100000000 = .ok (.jpV0 0x300) := by decide

theorem test_decode_rnd : decodeWord 0b1100000100001111 = .ok (.rnd 1 0x0F) := by decide

theorem test_decode_drw :
    decodeWord 0b1101000100100101 = .ok (.drw 1 2 5) ∧
    decodeWord 0b1101111111100000 = .ok (.drw 15 14 0) := by
  decide

theorem test_decode_skp : decodeWord 0b1110010010011110 = .ok (.skp 4) := by decide

theorem test_decode_sknp : decodeWord 0b1110010010100001 = .ok (.sknp 4) := by decide

theorem test_decode_ldVxDT : decodeWord 0b1111001100000111 = .ok (.ldVxDT 3) := by decide

theorem test_decode_ldVxK : decodeWord 0b1111010100001010 = .ok (.ldVxK 5) := by decide

theorem test_decode_ldDTVx : decodeWord 0b1111001100010101 = .ok (.ldDTVx 3) := by decide

theorem test_decode_ldSTVx : decodeWord 0b1111001100011000 = .ok (.ldSTVx 3) := by decide

theorem test_decode_addIVx : decodeWord 0b1111001000011110 = .ok (.addIVx 2) := by decide

theorem test_decode_ldFVx : decodeWord 0b1111000000101001 = .ok (.ldFVx 0) := by decide

theorem test_decode_ldBVx : decodeWord 0b1111000000110011 = .ok (.ldBVx 0) := by decide

theorem test_decode_ldMemVx : decodeWord 0b1111001001010101 = .ok (.ldMemVx 2) := by decide

theorem test_decode_ldVxMem : decodeWord 0b1111001001100101 = .ok (.ldVxMem 2) := by decide

/-- The illegal words of spec/95_test_vectors.md 2.7. -/
theorem test_decode_illegal_words :
    ([0x0000, 0x00E1, 0x00EF, 0x00FD, 0x0123, 0x5121, 0x512F, 0x8128, 0x812D, 0x812F, 0x9121] ++
      [0xE000, 0xE19F, 0xE1A0, 0xF000, 0xF10B, 0xF130, 0xF175, 0xF185, 0xF1FF, 0xFFFF] : List Word).all
      (fun w => decodeWord w == .error (.badOpcode w) && illegalWord w) = true := by decide

/-- The high byte is the one at the lower address (R44); one byte is no instruction (R62). -/
theorem test_decode_bytes :
    decode [0x60, 0x05, 0x70] = .ok (.ldImm 0 5, [0x70]) ∧ decode [0x60] = .error .truncated ∧
    decodeTableWord 16 0x6005 = some (.ldImm 0 5) ∧ decodeTableWord 16 0x0000 = none := by decide

/-! ## One step, spec/95_test_vectors.md part 2 -/

/-- TC1 -/
theorem test_jp :
    (runWord 0x1ABC clean).map (fun t => t.pc) =
      some 0x0ABC := by decide

/-- TC2 -/
theorem test_jp_self :
    (runWord 0x1200 clean).map (fun t => (t.pc, t.status)) =
      some (0x0200, .running) := by decide

/-- TC5 -/
theorem test_call :
    (runWord 0x2300 (withStack clean 15 0x0456)).map (fun t => (t.pc, t.sp, t.stk[14], t.stk[15])) =
      some (0x0300, 16, 0x0456, 0x0202) := by decide

/-- TC6 -/
theorem test_call_overflow :
    (runWord 0x2300 (withStack clean 16 0x0202)).map (fun t => (t.pc, t.sp, t.status)) =
      some (0x0200, 16, .faulted .stackOverflow 0x200) := by decide

/-- TC8 -/
theorem test_ret :
    (runWord 0x00EE (clean.setStack 2 ((Vector.replicate 16 0x0456).set 1 0x0ABD))).map (fun t => (t.pc, t.sp)) =
      some (0x0ABD, 1) := by decide

/-- TC9 -/
theorem test_ret_underflow :
    (runWord 0x00EE clean).map (fun t => (t.pc, t.status)) =
      some (0x0200, .faulted .stackUnderflow 0x200) := by decide

/-- TC10 -/
theorem test_seImm_skips :
    (runWord 0x3A42 (withRegs clean [(10, 0x42)])).map (fun t => t.pc) =
      some 0x0204 := by decide

/-- TC11 -/
theorem test_seImm_falls_through :
    (runWord 0x3A42 (withRegs clean [(10, 0x43)])).map (fun t => t.pc) =
      some 0x0202 := by decide

/-- TC12 -/
theorem test_sneImm_falls_through :
    (runWord 0x4A42 (withRegs clean [(10, 0x42)])).map (fun t => t.pc) =
      some 0x0202 := by decide

/-- TC13 -/
theorem test_sneImm_skips :
    (runWord 0x4A42 (withRegs clean [(10, 0x43)])).map (fun t => t.pc) =
      some 0x0204 := by decide

/-- TC15 -/
theorem test_seReg_falls_through :
    (runWord 0x5120 (withRegs clean [(1, 9), (2, 8)])).map (fun t => t.pc) =
      some 0x0202 := by decide

/-- TC16 -/
theorem test_seReg_same_register :
    (runWord 0x5330 (withRegs clean [(3, 0x77)])).map (fun t => t.pc) =
      some 0x0204 := by decide

/-- TC18 -/
theorem test_sneReg_skips :
    (runWord 0x9120 (withRegs clean [(1, 9), (2, 8)])).map (fun t => t.pc) =
      some 0x0204 := by decide

/-- TC19 -/
theorem test_sneReg_same_register :
    (runWord 0x9FF0 (withRegs clean [(15, 1)])).map (fun t => t.pc) =
      some 0x0202 := by decide

/-- TC20 -/
theorem test_jpV0 :
    (runWord 0xB300 (withRegs clean [(0, 0x10)])).map (fun t => t.pc) =
      some 0x0310 := by decide

/-- TC21 -/
theorem test_jpV0_largest :
    (runWord 0xBFFF (withRegs clean [(0, 0xFF)])).map (fun t => t.pc) =
      some 0x10FE := by decide

/-- TC24: the last executable address -/
theorem test_ldImm_last_address :
    (runWord 0x6000 (clean.setPc 0x0FFE)).map (fun t => (t.pc, t.status)) =
      some (0x1000, .running) := by decide

/-- TA1 -/
theorem test_ldImm :
    (runWord 0x6AFF clean).map (fun t => (t.getV 10, t.pc)) =
      some (0xFF, 0x0202) := by decide

/-- TA3 -/
theorem test_addImm_no_flag :
    (runWord 0x7001 (withRegs clean [(0, 0xFF), (15, 0x55)])).map (fun t => (t.getV 0, t.getV 15)) =
      some (0x00, 0x55) := by decide

/-- TA4 -/
theorem test_addImm :
    (runWord 0x7305 (withRegs clean [(3, 0x10)])).map (fun t => (t.getV 3, t.pc)) =
      some (0x15, 0x0202) := by decide

/-- TA6 -/
theorem test_ldReg :
    (runWord 0x8120 (withRegs clean [(1, 1), (2, 0xAB)])).map (fun t => (t.getV 1, t.getV 2)) =
      some (0xAB, 0xAB) := by decide

/-- TA7 -/
theorem test_orReg :
    (runWord 0x8121 (withRegs clean [(1, 0xF0), (2, 0x0F), (15, 7)])).map (fun t => (t.getV 1, t.getV 15)) =
      some (0xFF, 0x07) := by decide

/-- TA8 -/
theorem test_andReg :
    (runWord 0x8122 (withRegs clean [(1, 0xF0), (2, 0x3C), (15, 7)])).map (fun t => (t.getV 1, t.getV 15)) =
      some (0x30, 0x07) := by decide

/-- TA9 -/
theorem test_xorReg :
    (runWord 0x8123 (withRegs clean [(1, 0xF0), (2, 0x3C), (15, 7)])).map (fun t => (t.getV 1, t.getV 15)) =
      some (0xCC, 0x07) := by decide

/-- TA13 -/
theorem test_addReg_carry :
    (runWord 0x8124 (withRegs clean [(1, 0xFF), (2, 1)])).map (fun t => (t.getV 1, t.getV 15)) =
      some (0x00, 0x01) := by decide

/-- TA17 -/
theorem test_addReg_y_is_VF :
    (runWord 0x81F4 (withRegs clean [(1, 0xFF), (15, 2)])).map (fun t => (t.getV 1, t.getV 15)) =
      some (0x01, 0x01) := by decide

/-- TA21 -/
theorem test_subReg_equal :
    (runWord 0x8125 (withRegs clean [(1, 0x42), (2, 0x42), (15, 1)])).map (fun t => (t.getV 1, t.getV 15)) =
      some (0x00, 0x00) := by decide

/-- TA23 -/
theorem test_subReg_x_is_VF :
    (runWord 0x8F15 (withRegs clean [(15, 5), (1, 3)])).map (fun t => (t.getV 15, t.getV 1)) =
      some (0x02, 0x03) := by decide

/-- TA25 -/
theorem test_subnReg :
    (runWord 0x8127 (withRegs clean [(1, 0x10), (2, 0x30)])).map (fun t => (t.getV 1, t.getV 15)) =
      some (0x20, 0x01) := by decide

/-- TA26 -/
theorem test_subnReg_less :
    (runWord 0x8127 (withRegs clean [(1, 0x30), (2, 0x10), (15, 1)])).map (fun t => (t.getV 1, t.getV 15)) =
      some (0xE0, 0x00) := by decide

/-- TA29 -/
theorem test_shr :
    (runWord 0x8106 (withRegs clean [(1, 5)])).map (fun t => (t.getV 1, t.getV 15)) =
      some (0x02, 0x01) := by decide

/-- TA30 -/
theorem test_shr_ignores_y :
    (runWord 0x8126 (withRegs clean [(1, 4), (2, 0xFF), (15, 1)])).map (fun t => (t.getV 1, t.getV 2, t.getV 15)) =
      some (0x02, 0xFF, 0x00) := by decide

/-- TA34 -/
theorem test_shl :
    (runWord 0x810E (withRegs clean [(1, 0x81)])).map (fun t => (t.getV 1, t.getV 15)) =
      some (0x02, 0x01) := by decide

/-- TA38 -/
theorem test_shl_x_is_VF :
    (runWord 0x8F0E (withRegs clean [(15, 0x41)])).map (fun t => t.getV 15) =
      some 0x82 := by decide

/-- TA39 to TA41: the environment's byte, masked. -/
theorem test_rnd : (runWord 0xC1F0 clean).map (fun t => (t.getV 1, t.pc, t.draws)) =
    some (Config.randomByte 0 &&& 0xF0, 0x0202, 1) := rfl

/-- TI1 -/
theorem test_ldI :
    (runWord 0xA123 clean).map (fun t => (t.index, t.pc)) =
      some (0x0123, 0x0202) := by decide

/-- TI4 -/
theorem test_addIVx_no_mask :
    (runWord 0xF11E ((withRegs clean [(1, 1), (15, 5)]).setIndex 0x0FFF)).map (fun t => (t.index, t.getV 15)) =
      some (0x1000, 0x05) := by decide

/-- TI5 -/
theorem test_addIVx_wraps :
    (runWord 0xF11E ((withRegs clean [(1, 2)]).setIndex 0xFFFF)).map (fun t => t.index) =
      some 0x0001 := by decide

/-- TI6 -/
theorem test_ldFVx :
    (runWord 0xF129 (withRegs clean [(1, 0x0A)])).map (fun t => (t.index, t.pc)) =
      some (0x0032, 0x0202) := by decide

/-- TI10 -/
theorem test_ldFVx_whole_byte :
    (runWord 0xF129 (withRegs clean [(1, 0xFF)])).map (fun t => t.index) =
      some 0x04FB := by decide

/-- TI15 with V1 = 234 (TI11): the last legal I -/
theorem test_ldBVx_last_index :
    (runWord 0xF133 ((withRegs clean [(1, 0xEA)]).setIndex 0x0FFD)).map (fun t => (t.readByte 0xFFD, t.readByte 0xFFE, t.readByte 0xFFF, t.index)) =
      some (2, 3, 4, 0x0FFD) := by decide

/-- TI16: no partial write -/
theorem test_ldBVx_fault :
    (runWord 0xF133 ((withRegs clean [(1, 0x64)]).setIndex 0x0FFE)).map (fun t => (t.readByte 0xFFE, t.pc, t.status)) =
      some (0, 0x0200, .faulted .addressError 0x1000) := by decide

/-- TI21 -/
theorem test_ldMemVx_all :
    (runWord 0xFF55 (sixteenRegs.setIndex 0x0FF0)).map (fun t => (t.readByte 0xFF0, t.readByte 0xFFF, t.index, t.pc)) =
      some (0xA0, 0xAF, 0x0FF0, 0x0202) := by decide

/-- TI22 -/
theorem test_ldMemVx_fault :
    (runWord 0xFF55 (sixteenRegs.setIndex 0x0FF1)).map (fun t => (t.readByte 0xFF1, t.status)) =
      some (0, .faulted .addressError 0x1000) := by decide

/-- TI26 -/
theorem test_ldVxMem_font :
    (runWord 0xFF65 clean).map (fun t => (t.getV 0, t.getV 1, t.getV 5, t.getV 9, t.getV 15)) =
      some (0xF0, 0x90, 0x20, 0x70, 0xF0) := by decide

/-- TI27: no partial load -/
theorem test_ldVxMem_fault :
    (runWord 0xF165 ((withRegs clean [(0, 7), (1, 8)]).setIndex 0x0FFF)).map (fun t => (t.getV 0, t.pc, t.status)) =
      some (0x07, 0x0200, .faulted .addressError 0x1000) := by decide

/-- TD1. -/
theorem test_cls : (runWord 0x00E0 (clean.setFb (Vector.replicate 32 1))).map (fun t => (t.fb == clearDisplay, t.pc)) =
    some (true, 0x0202) := by decide

/-- TD4: rows and columns wrap one by one, bit 7 is the column at Vx. Row r is a word whose bit c is pixel (c, r). -/
theorem test_drw_wraps :
    (runWord 0xD012 (((withRegs clean [(0, 0x3E), (1, 0x1F)]).setIndex 0x0300).setMem [(0x300, 0xC0), (0x301, 0x01)])).map
      (fun t => (t.fb == (clearDisplay.set 31 0xC000000000000000).set 0 0x20, t.getV 15, t.pc)) =
      some (true, 0x00, 0x0202) := by decide

/-- TD6: a collision. -/
theorem test_drw_collision :
    (runWord 0xD011 (((clean.setIndex 0x0300).setMem [(0x300, 0xC0)]).setFb (clearDisplay.set 0 0b10))).map
      (fun t => (t.fb == clearDisplay.set 0 0b01, t.getV 15)) = some (true, 0x01) := by decide

/-- TK1 to TK5: the whole 8-bit value is asked for, and SKP and SKNP go opposite ways. -/
theorem test_skp : (runWord 0xE19E (withRegs clean [(1, 0x15)])).map (fun t => (t.pc, t.draws)) =
    some (if Config.isPressed 0 0x15 then 0x0204 else 0x0202, 1) := rfl

theorem test_sknp : (runWord 0xE1A1 (withRegs clean [(1, 0x15)])).map (fun t => (t.pc, t.draws)) =
    some (if !Config.isPressed 0 0x15 then 0x0204 else 0x0202, 1) := rfl

/-- TK6 -/
theorem test_ldVxK :
    (runWord 0xF30A clean).map (fun t => (t.status, t.pc, t.getV 3)) =
      some (.waitingForKey 3, 0x0202, 0) := by decide

/-- TM1 -/
theorem test_ldVxDT :
    (runWord 0xF107 (clean.setDt 0x2A)).map (fun t => (t.getV 1, t.dt, t.pc)) =
      some (0x2A, 0x2A, 0x0202) := by decide

/-- TM5 -/
theorem test_ldDTVx :
    (runWord 0xF115 (clean.setDt 5)).map (fun t => (t.dt, t.pc)) =
      some (0, 0x0202) := by decide

/-- TM3 -/
theorem test_ldSTVx :
    (runWord 0xF118 (withRegs clean [(1, 1)])).map (fun t => (t.st, t.soundOn, t.pc)) =
      some (1, true, 0x0202) := by decide

/-! ## Fetch and faults -/

/-- TC25, TX4: the fetch fault comes before the word is decoded, and PC is kept. -/
theorem test_fetch_at_0FFF : (nextOf (step ((withStack clean 16 0x0202).setPc 0x0FFF))).map (fun t => (t.pc, t.status)) =
    some (0x0FFF, .faulted .addressError 0x1000) := by decide

/-- EX of doc00 §8: 0xFFFF is BadOpcode without mutating any register; empty memory is 0000, also BadOpcode (R203). -/
theorem test_bad_opcode :
    (runWord 0xFFFF (withRegs clean [(1, 3)])).map (fun t => (t.pc, t.getV 1, t.status)) =
      some (0x0200, 0x03, .faulted .badOpcode 0xFFFF) ∧
    (nextOf (step clean)).map (fun t => t.status) = some (.faulted .badOpcode 0) := by decide

/-- P7: the store replaces the next instruction's high byte and the fetch sees it. -/
theorem test_self_modifying :
    (runWord 0xF055 (((withRegs clean [(0, 0x12)]).setIndex 0x0206).setPc 0x0204)).map
      (fun t => (nextOf (step t)).map (fun u => (u.pc, u.getV 1))) = some (some (0x0200, 0x00)) := by decide

/-! ## Events -/

/-- TK8, TK10: the key goes to the recorded register, zero-extended; PC stays. -/
theorem test_keyPress :
    keyPress 7 (clean.setStatus (.waitingForKey 3)) = clean.setV 3 7 ∧
    keyPress 0 ((clean.setV 15 1).setStatus (.waitingForKey 15)) = (clean.setV 15 1).setV 15 0 := by decide

/-- TK9, TK11. -/
theorem test_keyPress_ignored :
    keyPress 7 clean = clean ∧
    keyPress 7 (clean.setStatus (.faulted .badOpcode 0xFFFF)) = clean.setStatus (.faulted .badOpcode 0xFFFF) := by decide

/-- TM6, TM8, TM9, TM11. -/
theorem test_tickTimers :
    tickTimers ((clean.setDt 2).setSt 1) = (clean.setDt 1).setSt 0 ∧ tickTimers clean = clean ∧
    tickTimers ((clean.setDt 255).setSt 255) = (clean.setDt 254).setSt 254 ∧
    tickTimers (((clean.setDt 5).setSt 2).setStatus (.faulted .badOpcode 0)) =
      ((clean.setDt 4).setSt 1).setStatus (.faulted .badOpcode 0) := by decide

/-- TX3, TK12: `reset()` from Faulted and from WaitingForKey. -/
theorem test_reset :
    hostReset ((withStack clean 16 0x0202).setStatus (.faulted .stackOverflow 0x200)) = clean ∧
    hostReset ((clean.setMem [(0x300, 1)]).setStatus (.waitingForKey 3)) = clean := by decide

/-- TL4, TL5, TX2: an odd length, and a load that keeps what it does not write. -/
theorem test_loadProgram :
    loadProgram [0x60, 0x05, 0x70] clean = clean.setMem [(0x200, 0x60), (0x201, 0x05), (0x202, 0x70)] ∧
    loadProgram [0x12, 0x00] (((clean.setMem [(0x202, 0x77)]).setPc 0x0300).setStatus (.faulted .badOpcode 0)) =
      (clean.setMem [(0x200, 0x12), (0x202, 0x77)]).setStatus (.faulted .badOpcode 0) := by decide

/-- Memory is canonical after reset, and writing back what an unlisted address reads as removes the cell. -/
theorem test_memory_canonical :
    State.reset.mem.wf = true ∧ writeCell [(0x300, 1)] 0x300 0 = [] ∧ writeCell [] 0 0xF0 = [] := by decide

/-- Placing an instruction uses PC when a word fits there, and 0x200 otherwise (log entry 21). -/
theorem test_withFetchWord :
    (nextOf (step ((clean.setPc 0x0FFF).withFetchWord 16 0x6005))).map (fun t => (t.getV 0, t.pc)) =
      some (0x05, 0x0202) ∧
    (nextOf (step (((clean.setPc 0x0FFE).setStatus (.waitingForKey 1)).withFetchWord 16 0x6005))).map
      (fun t => (t.getV 0, t.pc)) = some (0x05, 0x1000) := by decide

/-! ## Witnesses: for each obligation with hypotheses, a concrete state and operands that meet them together; for each
clause of its own range, a boundary value -/

theorem witness_DecodeOfEncodeIsIdentity : ∃ i : Instr, i.wf = true := ⟨.drw 15 15 15, by decide⟩

theorem witness_EncodeOfDecodeIsIdentity : ∃ (w : Word) (i : Instr), decodeWord w = .ok i :=
  ⟨0x8126, .shr 1 2, by decide⟩

/-- A word that matches one row, and one that matches none. -/
theorem witness_DecoderFollowsTheOpcodeMap :
    (∃ r ∈ opcodeRows, (0xD125 : Word) &&& r.mask = r.bits) ∧ decodeWord 0xD125 = .ok (.drw 1 2 5) ∧
    ∀ r ∈ opcodeRows, (0x8128 : Word) &&& r.mask ≠ r.bits := by decide

/-- The words around the borders of the groups 8 and 0. -/
theorem witness_IllegalWordsAreExactlyTheRejectedOnes :
    illegalWord 0x8127 = false ∧ illegalWord 0x8128 = true ∧ illegalWord 0x812D = true ∧ illegalWord 0x812E = false ∧
    illegalWord 0x812F = true ∧ illegalWord 0x00DF = true ∧ illegalWord 0x00E0 = false := by decide

/-- The last address an instruction can be fetched from. -/
theorem witness_StepRunsTheDecodedInstruction :
    ∃ (s : State) (i : Instr), s.status = .running ∧ s.pc.toNat ≤ 4094 ∧
      decodeWord (s.readByte s.pc.toNat ++ s.readByte (s.pc.toNat + 1)) = .ok i :=
  ⟨(clean.setMem [(4094, 0x60), (4095, 0x05)]).setPc 4094, .ldImm 0 5, by decide⟩

theorem witness_PlacedInstructionRunsNext :
    ∃ (s : State) (i : Instr), s.mem.wf = true ∧ i.wf = true := ⟨clean.setPc 0x0FFF, .drw 1 2 15, by decide⟩

theorem witness_StepOutsideRunningChangesNothing :
    (clean.setStatus (.waitingForKey 3)).status ≠ .running ∧
    (clean.setStatus (.faulted .badOpcode 0xFFFF)).status ≠ .running := by decide

/-- Both branches of the info: PC = 4095 and PC = 4096. -/
theorem witness_FetchOutsideMemoryIsAnAddressError :
    ((clean.setPc 4095).status = .running ∧ 4094 < (clean.setPc 4095).pc.toNat) ∧
    ((clean.setPc 4096).status = .running ∧ 4094 < (clean.setPc 4096).pc.toNat) := by decide

theorem witness_IllegalWordIsABadOpcodeFault :
    ∃ (s : State) (w : Word), s.status = .running ∧ s.pc.toNat ≤ 4094 ∧
      w = s.readByte s.pc.toNat ++ s.readByte (s.pc.toNat + 1) ∧ illegalWord w = true :=
  ⟨(clean.setMem [(4094, 0xFF), (4095, 0xFF)]).setPc 4094, 0xFFFF, by decide⟩

theorem witness_FaultsArePrecise :
    ∃ (s t : State) (c : FaultCause) (n : BitVec 17), s.status = .running ∧ step s = .next t ∧ t.status = .faulted c n :=
  ⟨placeWord clean 0x00EE, takeFault .stackUnderflow 0x200 (placeWord clean 0x00EE), .stackUnderflow, 0x200,
    rfl, rfl, rfl⟩

/-- Each conditional clause on both sides of its border. -/
theorem witness_StatusAfterEveryInstruction :
    faultOf .ret clean = some (.stackUnderflow, 0x200) ∧ faultOf .ret (withStack clean 1 0x0202) = none ∧
    faultOf (.call 0) (withStack clean 15 0x0202) = none ∧
    faultOf (.call 0) (withStack clean 16 0x0202) = some (.stackOverflow, 0x200) ∧
    faultOf (.drw 0 0 0) (clean.setIndex 0xFFFF) = none ∧ faultOf (.drw 0 0 15) (clean.setIndex 4081) = none ∧
    faultOf (.drw 0 0 15) (clean.setIndex 4082) = some (.addressError, 4096) ∧
    faultOf (.ldBVx 0) (clean.setIndex 4093) = none ∧
    faultOf (.ldBVx 0) (clean.setIndex 4094) = some (.addressError, 4096) ∧
    faultOf (.ldMemVx 15) (clean.setIndex 4080) = none ∧
    faultOf (.ldMemVx 15) (clean.setIndex 4081) = some (.addressError, 4096) ∧
    faultOf (.ldVxMem 0) (clean.setIndex 4095) = none ∧
    faultOf (.ldVxMem 0) (clean.setIndex 0xFFFF) = some (.addressError, 0xFFFF) := by decide

/-- The hypothesis all statements about `exec` share: an instruction that answers a state. -/
theorem witness_exec_answers :
    exec .ret clean = .next (takeFault .stackUnderflow 0x200 clean) ∧
    exec (.ldImm 3 7) clean = .next ((clean.setV 3 7).setPc 0x202) := ⟨rfl, rfl⟩

theorem witness_FaultedIsLeftOnlyByReset :
    ∃ (es : List Event) (s t : State), s.status = .faulted .badOpcode 0xFFFF ∧ (∀ e ∈ es, e ≠ .reset) ∧
      runEvents es s = .next t :=
  ⟨[.step, .tickTimers, .keyPress 3, .loadProgram [0x12]], clean.setStatus (.faulted .badOpcode 0xFFFF), _,
    rfl, by decide, rfl⟩

theorem witness_TheWaitSurvivesStepsAndTicks :
    ∃ (es : List Event) (s t : State), s.status = .waitingForKey 3 ∧ (∀ e ∈ es, e = .step ∨ e = .tickTimers) ∧
      runEvents es s = .next t :=
  ⟨[.step, .tickTimers, .step], (clean.setDt 5).setStatus (.waitingForKey 3), _, rfl, by decide, rfl⟩

/-- The invariant's clauses at their borders: PC = 0x10FE, a full stack of 4096 and of 2. -/
theorem witness_Inv (a : Word) (h : a = 2 ∨ a = 4096) : Inv ((withStack clean 16 a).setPc 0x10FE) := by
  rcases h with rfl | rfl
  · exact ⟨rfl, by unfold State.pcInRange; decide, by unfold State.stackInRange; decide⟩
  · exact ⟨rfl, by unfold State.pcInRange; decide, by unfold State.stackInRange; decide⟩

theorem witness_EveryStepKeepsTheInvariant : ∃ s t : State, Inv s ∧ step s = .next t :=
  ⟨(withStack clean 16 4096).setPc 0x10FE, _, witness_Inv 4096 (.inr rfl), rfl⟩

theorem witness_EverySequenceOfEventsKeepsTheInvariant :
    ∃ (es : List Event) (s t : State), Inv s ∧ runEvents es s = .next t :=
  ⟨[.reset, .loadProgram [0x12, 0x00], .step, .tickTimers], (withStack clean 16 2).setPc 0x10FE, _,
    witness_Inv 2 (.inl rfl), rfl⟩

theorem witness_OnlyNamedRegistersAreWritten :
    exec (.ldImm 3 7) clean = .next ((clean.setV 3 7).setPc 0x202) ∧ writesV (.ldImm 3 7) 4 = false := ⟨rfl, rfl⟩

theorem witness_UnreadRegistersDoNotMatter :
    readsV (.addReg 1 2) 3 = false ∧ writesV (.addReg 1 2) 3 = false ∧
    exec (.addReg 1 2) clean = .next (((clean.setV 15 0).setV 1 0).setPc 0x202) := ⟨rfl, rfl, rfl⟩

theorem witness_OnlyBcdAndRegisterStoreWriteMemory :
    (∀ x, Instr.cls ≠ .ldBVx x) ∧ (∀ x, Instr.cls ≠ .ldMemVx x) ∧ ∃ t, exec .cls clean = .next t :=
  ⟨by decide, by decide, _, rfl⟩

/-- Each clause: an instruction that does change the state it names. -/
theorem witness_OnlyTheirOwnInstructionsWriteSystemState :
    (∃ t, exec (.ldI 1) clean = .next t ∧ t.index ≠ clean.index) ∧
    (∃ t, exec (.ldDTVx 1) (clean.setV 1 1) = .next t ∧ t.dt ≠ clean.dt) ∧
    (∃ t, exec (.ldSTVx 1) (clean.setV 1 1) = .next t ∧ t.st ≠ clean.st) ∧
    (∃ t, exec (.call 1) clean = .next t ∧ t.sp ≠ clean.sp) ∧
    (∃ t, exec (.drw 0 0 1) clean = .next t ∧ t.fb ≠ clean.fb) ∧
    ∃ t, exec (.skp 0) clean = .next t ∧ t.draws ≠ clean.draws :=
  ⟨⟨_, rfl, by decide⟩, ⟨_, rfl, by decide⟩, ⟨_, rfl, by decide⟩, ⟨_, rfl, by decide⟩, ⟨_, rfl, by decide⟩, _, rfl,
    Nat.one_ne_zero⟩

theorem witness_ProgramCounterAfterEveryInstruction :
    (∃ t, exec (.jp 0x234) clean = .next t ∧ faultOf (.jp 0x234) clean = none) ∧
    ∃ t, exec .ret clean = .next t ∧ faultOf .ret clean ≠ none := ⟨⟨_, rfl, rfl⟩, _, rfl, by decide⟩

theorem witness_FlagWritersLeaveZeroOrOneInVF :
    writesFlagToVF (.drw 15 15 15) = true ∧ faultOf (.drw 15 15 15) (clean.setIndex 4081) = none ∧
    ∃ t, exec (.drw 15 15 15) (clean.setIndex 4081) = .next t := ⟨rfl, by decide, _, rfl⟩

/-- A jump to itself, and one to the last address. -/
theorem witness_JumpReachesItsTarget :
    clean.pc.toNat = (0x200 : Addr).toNat ∧ ((0xFFF : Addr) = 0xFFF ∧ clean.status = .running) := by decide

/-- An empty stack and one with a single free slot. -/
theorem witness_CallPushesTheReturnAddress :
    clean.sp.val < 16 ∧ (withStack clean 15 0x0202).sp.val < 16 := by decide

/-- A stack of one and a full one. -/
theorem witness_ReturnPopsTheAddress :
    (0 : Fin 16).val + 1 = (withStack clean 1 0x0202).sp.val ∧
    (15 : Fin 16).val + 1 = (withStack clean 16 0x0202).sp.val := by decide

theorem witness_StackFaultsRecordThePc :
    (withStack clean 16 0x0202).sp.val = 16 ∧ clean.sp.val = 0 := by decide

theorem witness_CallThenReturnComesBack : (withStack clean 15 0x0202).sp.val < 16 := by decide

/-- V1 = 9 is met by nn = 9 and not by nn = 8. -/
theorem witness_ImmediateSkipsCompareAndSkip :
    (clean.setV 1 9).getV 1 = 9 ∧ (clean.setV 1 9).getV 1 ≠ 8 := by decide

/-- Equal and different registers, and a nonzero low nibble. -/
theorem witness_RegisterSkipsCompareAndSkip :
    (clean.setV 1 9).getV 1 = (clean.setV 1 9).getV 1 ∧ (clean.setV 1 9).getV 1 ≠ (clean.setV 1 9).getV 2 ∧
    (1 : BitVec 4) ≠ 0 := by decide

/-- Carry and no carry at the border 255. -/
theorem witness_AddSetsCarry :
    (1 : Reg) ≠ 15 ∧ ((clean.setV 1 255).setV 2 1).getV 1 = 255 ∧
    255 < (((clean.setV 1 255).setV 2 1).getV 1).toNat + (((clean.setV 1 255).setV 2 1).getV 2).toNat ∧
    ¬ 255 < (((clean.setV 1 255).setV 2 0).getV 1).toNat + (((clean.setV 1 255).setV 2 0).getV 2).toNat := by decide

/-- Minuend one above, and equal. -/
theorem witness_SubtractionsSetGreater :
    (1 : Reg) ≠ 15 ∧ ((clean.setV 1 8).getV 1).toNat > (((clean.setV 1 8).setV 2 7).getV 2).toNat ∧
    ¬ ((clean.setV 1 8).getV 1).toNat > (((clean.setV 1 8).setV 2 8).getV 2).toNat := by decide

/-- The flag set and clear for both shifts. -/
theorem witness_ShiftsMoveOneBitIntoVF :
    (1 : Reg) ≠ 15 ∧ ((clean.setV 1 0x81).getV 1).toNat % 2 = 1 ∧ 128 ≤ ((clean.setV 1 0x80).getV 1).toNat ∧
    ¬ ((clean.setV 1 0x80).getV 1).toNat % 2 = 1 ∧ ¬ 128 ≤ ((clean.setV 1 0x7F).getV 1).toNat := by decide

theorem witness_BcdStoresThreeDigits :
    (clean.setIndex 4093).mem.wf = true ∧ (clean.setIndex 4093).index.toNat ≤ 4093 := by decide

theorem witness_RegisterStoreWritesV0ToVx :
    (clean.setIndex 4080).mem.wf = true ∧ (clean.setIndex 4080).index.toNat + (15 : Reg).val ≤ 4095 := by decide

theorem witness_RegisterLoadReadsV0ToVx :
    (clean.setIndex 4080).index.toNat + (15 : Reg).val ≤ 4095 ∧ (0 : Reg) < 15 := by decide

/-- Each clause at the first I that faults. -/
theorem witness_AccessThroughIndexOutsideMemoryFaults :
    4095 < (clean.setIndex 4094).index.toNat + 2 ∧ 4095 < (clean.setIndex 4081).index.toNat + (15 : Reg).val ∧
    (0 < 15 ∧ 4095 < (clean.setIndex 4082).index.toNat + 15 - 1) := by decide

theorem witness_StoreThenLoadRestoresRegisters :
    ∃ (s t u : State), s.mem.wf = true ∧ s.index.toNat + (15 : Reg).val ≤ 4095 ∧ exec (.ldMemVx 15) s = .next t ∧
      u.mem = t.mem ∧ u.index = s.index :=
  ⟨sixteenRegs.setIndex 4080, _, _, by decide, by decide, rfl, rfl, rfl⟩

theorem witness_StoredInstructionRunsNext :
    ∃ (i : Instr) (s t : State), s.mem.wf = true ∧ s.status = .running ∧ s.pc.toNat ≤ 4092 ∧
      s.index.toNat = s.pc.toNat + 2 ∧ s.index.toNat + (1 : Reg).val ≤ 4095 ∧ (1 : Reg) ≤ 1 ∧
      decodeWord (s.getV 0 ++ s.getV 1) = .ok i ∧ exec (.ldMemVx 1) s = .next t :=
  ⟨.jp 0x200, ((withRegs clean [(0, 0x12), (1, 0x00)]).setIndex 4094).setPc 4092, _, by decide, rfl, by decide,
    by decide, by decide, by decide, by decide, rfl⟩

/-- Fifteen rows at the last legal I, and no row at an I outside memory. -/
theorem witness_DrawTogglesExactlyTheCoveredPixels :
    (15 ≤ 15 ∧ (15 = 0 ∨ (clean.setIndex 4081).index.toNat + 15 ≤ 4096)) ∧
    (0 ≤ 15 ∧ (0 = 0 ∨ (clean.setIndex 0xFFFF).index.toNat + 0 ≤ 4096)) := by decide

/-- A covered and an uncovered pixel of glyph 0 at (0, 0), unset and set before. -/
theorem witness_DrawTogglesExactlyTheCoveredPixels_covered :
    covered clean 0 0 5 3 4 ∧ ¬ covered clean 0 0 5 8 0 ∧ pixelAt clean.fb 3 4 = false ∧
    pixelAt (clean.setFb (Vector.replicate 32 8)).fb 3 4 = true := by
  refine ⟨⟨4, 3, by decide, by decide, by decide, by decide, by decide⟩, ?_, by decide, by decide⟩
  rintro ⟨r, c, -, hc, -, h, -⟩
  have h0 : (clean.getV 0).toNat = 0 := by decide
  rw [h0] at h
  simp only [displayW] at h
  omega

theorem witness_DrawingTwiceRestoresTheDisplay :
    ∃ (s t s' : State), 5 ≤ 15 ∧ (5 = 0 ∨ s.index.toNat + 5 ≤ 4096) ∧ exec (.drw 0 0 5) s = .next t ∧
      s'.fb = t.fb ∧ s'.getV 0 = s.getV 0 ∧ s'.index = s.index ∧ sameMemory s s' ∧
      (∃ cx cy, covered s 0 0 5 cx cy) ∧ ∀ cx cy, covered s 0 0 5 cx cy → pixelAt s.fb cx cy = false :=
  ⟨clean, _, _, by decide, by decide, rfl, rfl, rfl, rfl, fun _ => rfl,
    ⟨3, 4, witness_DrawTogglesExactlyTheCoveredPixels_covered.1⟩,
    fun cx cy _ => by simp [clean, pixelAt, clearDisplay]⟩

theorem witness_KeyPressActsOnlyOnAWait :
    (clean.setStatus (.waitingForKey 15)).status = .waitingForKey 15 ∧ ∀ r, clean.status ≠ .waitingForKey r := by decide

/-- A program of 3584 bytes and one of 3585 (TL1, TL2). -/
theorem witness_LoadProgramPlacesTheBytes :
    clean.mem.wf = true ∧ (List.replicate 3584 (0xAA : Byte)).length ≤ 3584 ∧
    3584 < (List.replicate 3585 (0xAA : Byte)).length := by
  simp only [List.length_replicate]
  decide

theorem witness_BootRunsTheProgramsFirstInstruction :
    ∃ (hi lo : Byte) (rest : List Byte) (i : Instr), rest.length ≤ 3582 ∧ decodeWord (hi ++ lo) = .ok i :=
  ⟨0x60, 0x05, List.replicate 3582 0xAA, .ldImm 0 5, by rw [List.length_replicate], by decide⟩

end Sys2Proof.Tests
end

/-! # What one instruction and one step do

Every instruction either takes the fault `faultOf` names or has its fault-free effect, the function `effect`. These
lemmas tie `effect` to `exec` once; what an instruction changes is then read off `effect`, with no fault left to split
on. -/

namespace Sys2Proof.Machine

/-! ## The fault-free effect -/

/-- What an instruction does to the state when it raises no fault (`exec_eq_effect`): the meanings of spec/40_control.md
to spec/45_timers.md without the range checks of R126 and the stack checks of R80 and R82. The stack arithmetic of RET
and CALL is made total; with a slot to pop or to push it is the model's own (`exec_cases`, `effect_call`). -/
def effect (i : Instr) (s : State) : State :=
  match i with
  | .cls => (s.setFb clearDisplay).advance
  | .ret => (s.setStack ⟨s.sp.val - 1, by omega⟩ s.stk).setPc (s.stk[s.sp.val - 1]'(by omega))
  | .jp nnn => s.setPc (addrWord nnn)
  | .call nnn => (s.setStack (s.sp + 1) (s.stk.setIfInBounds s.sp.val s.npc)).setPc (addrWord nnn)
  | .seImm x nn => s.skipIf (s.getV x == nn)
  | .sneImm x nn => s.skipIf (s.getV x != nn)
  | .seReg x y => s.skipIf (s.getV x == s.getV y)
  | .sneReg x y => s.skipIf (s.getV x != s.getV y)
  | .jpV0 nnn => s.setPc (jumpTarget nnn (s.getV 0))
  | .ldImm x nn => (s.setV x nn).advance
  | .addImm x nn => (s.setV x (addResult (s.getV x) nn)).advance
  | .ldReg x y => (s.setV x (s.getV y)).advance
  | .orReg x y => (s.setV x (s.getV x ||| s.getV y)).advance
  | .andReg x y => (s.setV x (s.getV x &&& s.getV y)).advance
  | .xorReg x y => (s.setV x (s.getV x ^^^ s.getV y)).advance
  | .addReg x y =>
    (s.setFlagThenResult x (addFlag (s.getV x) (s.getV y)) (addResult (s.getV x) (s.getV y))).advance
  | .subReg x y =>
    (s.setFlagThenResult x (subFlag (s.getV x) (s.getV y)) (subResult (s.getV x) (s.getV y))).advance
  | .shr x _ => (s.setFlagThenResult x (shrFlag (s.getV x)) (shrResult (s.getV x))).advance
  | .subnReg x y =>
    (s.setFlagThenResult x (subFlag (s.getV y) (s.getV x)) (subResult (s.getV y) (s.getV x))).advance
  | .shl x _ => (s.setFlagThenResult x (shlFlag (s.getV x)) (shlResult (s.getV x))).advance
  | .rnd x nn => (s.setV x (s.randomByte &&& nn)).nextDraw.advance
  | .drw x y n => ((s.setFb (s.drawn x y n).1).setV VF (flagByte (s.drawn x y n).2)).advance
  | .skp x => (s.skipIf (s.keyAnswer (s.getV x))).nextDraw
  | .sknp x => (s.skipIf (!s.keyAnswer (s.getV x))).nextDraw
  | .ldVxDT x => (s.setV x s.dt).advance
  | .ldVxK x => (s.setStatus (.waitingForKey x)).advance
  | .ldDTVx x => (s.setDt (s.getV x)).advance
  | .ldSTVx x => (s.setSt (s.getV x)).advance
  | .ldI nnn => (s.setIndex (addrWord nnn)).advance
  | .addIVx x => (s.setIndex (indexSum s.index (s.getV x))).advance
  | .ldFVx x => (s.setIndex (glyphAddress (s.getV x))).advance
  | .ldBVx x => (s.storeAtIndex (bcdDigits (s.getV x))).advance
  | .ldMemVx x => (s.storeAtIndex (s.regsUpTo x)).advance
  | .ldVxMem x => (s.loadRegsUpTo x).advance

theorem sp_pos_of_faultOf_ret {s : State} (hf : faultOf .ret s = none) : 0 < s.sp.val := by
  by_contra h
  simp [faultOf, Nat.eq_zero_of_not_pos h] at hf

theorem sp_lt_of_faultOf_call {nnn : Addr} {s : State} (hf : faultOf (.call nnn) s = none) : s.sp.val < 16 := by
  by_contra h
  have h16 : s.sp.val = 16 := by have := s.sp.isLt; omega
  simp [faultOf, h16] at hf

/-- CALL with room on the stack (R82). -/
theorem effect_call (nnn : Addr) {s : State} (h : s.sp.val < 16) :
    effect (.call nnn) s =
      (s.setStack ⟨s.sp.val + 1, Nat.succ_lt_succ h⟩ (s.stk.set s.sp.val s.npc h)).setPc (addrWord nnn) := by
  have hsp : s.sp + 1 = ⟨s.sp.val + 1, Nat.succ_lt_succ h⟩ := Fin.ext (Nat.mod_eq_of_lt (Nat.succ_lt_succ h))
  have hstk : s.stk.setIfInBounds s.sp.val s.npc = s.stk.set s.sp.val s.npc h := by
    simp [Vector.setIfInBounds, Vector.set, Array.setIfInBounds, h]
  simp only [effect, hsp, hstk]

/-! ## Every instruction faults or has its effect -/

/-- The block accesses: a meaning that is `withBlock` and whose fault condition is the block's. -/
theorem exec_cases_of_withBlock {i : Instr} {s : State} {n : Nat} (he : exec i s = withBlock n s (effect i s))
    (hf : faultOf i s =
      if n ≠ 0 ∧ 4096 < s.index.toNat + n then some (.addressError, max s.index.toNat 4096) else none) :
    (∃ c k, faultOf i s = some (c, k) ∧ exec i s = .next (takeFault c k s)) ∨
      (faultOf i s = none ∧ exec i s = .next (effect i s)) := by
  rw [he, hf]
  obtain ⟨hin, hb⟩ | ⟨hn, hout, hb⟩ := withBlock_cases n s (effect i s)
  · exact .inr ⟨if_neg (by omega), hb⟩
  · exact .inl ⟨_, _, if_pos ⟨hn, hout⟩, hb⟩

/-- Everything an instruction can do: the fault of R180, precise (R165), or its effect. -/
theorem exec_cases (i : Instr) (s : State) :
    (∃ c n, faultOf i s = some (c, n) ∧ exec i s = .next (takeFault c n s)) ∨
      (faultOf i s = none ∧ exec i s = .next (effect i s)) := by
  cases i
  case ret =>
    obtain ⟨hsp, he⟩ | ⟨hsp, he⟩ := execRet_cases s
    · exact .inl ⟨_, _, if_pos hsp, he⟩
    · exact .inr ⟨if_neg (by omega), he⟩
  case call nnn =>
    obtain ⟨hsp, he⟩ | ⟨hsp, he⟩ := execCall_cases nnn s
    · exact .inl ⟨_, _, if_pos hsp, he⟩
    · exact .inr ⟨if_neg (by omega), he.trans (by rw [effect_call nnn hsp])⟩
  case drw | ldBVx | ldMemVx | ldVxMem => exact exec_cases_of_withBlock rfl (if_congr (by omega) rfl rfl)
  all_goals exact .inr ⟨rfl, rfl⟩

theorem exec_eq_takeFault {i : Instr} {s : State} {c : FaultCause} {n : Nat} (hf : faultOf i s = some (c, n)) :
    exec i s = .next (takeFault c n s) := by
  obtain ⟨c', n', hf', he⟩ | ⟨hf', -⟩ := exec_cases i s
  · obtain ⟨rfl, rfl⟩ : c' = c ∧ n' = n := by simpa [hf] using hf'.symm
    exact he
  · simp [hf] at hf'

theorem exec_eq_effect {i : Instr} {s : State} (hf : faultOf i s = none) : exec i s = .next (effect i s) := by
  obtain ⟨c, n, hf', -⟩ | ⟨-, he⟩ := exec_cases i s
  · simp [hf] at hf'
  · exact he

/-- `exec_cases`, read backwards from the answer. -/
theorem exec_next_cases {i : Instr} {s t : State} (h : exec i s = .next t) :
    (∃ c n, faultOf i s = some (c, n) ∧ t = takeFault c n s) ∨ (faultOf i s = none ∧ t = effect i s) := by
  obtain ⟨c, n, hf, he⟩ | ⟨hf, he⟩ := exec_cases i s
  · exact .inl ⟨c, n, hf, by rw [he] at h; cases h; rfl⟩
  · exact .inr ⟨hf, by rw [he] at h; cases h; rfl⟩

/-! ## Everything a step can do -/

/-- The word at PC, high byte first (R44). -/
def State.wordAtPc (s : State) : Word := wordOfBytes (s.readByte s.pc.toNat) (s.readByte (s.pc.toNat + 1))

/-- Everything `step()` can do, in the priority order of R167: nothing outside Running, a fetch fault, a decode fault, or
the meaning of the decoded instruction. -/
theorem step_cases (s : State) :
    (s.status ≠ .running ∧ step s = .next s) ∨
    (s.status = .running ∧ 4094 < s.pc.toNat ∧
      step s = .next (takeFault .addressError (max s.pc.toNat 4096) s)) ∨
    (s.status = .running ∧ s.pc.toNat ≤ 4094 ∧ (∃ e, decodeWord s.wordAtPc = .error e) ∧
      step s = .next (takeFault .badOpcode s.wordAtPc.toNat s)) ∨
    (s.status = .running ∧ s.pc.toNat ≤ 4094 ∧ ∃ i, decodeWord s.wordAtPc = .ok i ∧ step s = exec i s) := by
  cases hq : s.status with
  | waitingForKey r => exact .inl ⟨nofun, by simp only [step, stepEvent, hq]⟩
  | faulted c n => exact .inl ⟨nofun, by simp only [step, stepEvent, hq]⟩
  | running =>
    have hstep : step s = fetchDecodeExecute s := by simp only [step, stepEvent, hq]
    rw [hstep, fetchDecodeExecute]
    by_cases hpc : s.pc.toNat ≤ 4094
    · rw [fetchWord_inRange hpc, ← State.wordAtPc]
      cases hd : decodeWord s.wordAtPc with
      | error e => exact .inr (.inr (.inl ⟨rfl, hpc, ⟨e, rfl⟩, by simp only [hd]⟩))
      | ok i => exact .inr (.inr (.inr ⟨rfl, hpc, i, rfl, by simp only [hd]⟩))
    · rw [fetchWord_outOfRange (by omega)]
      exact .inr (.inl ⟨rfl, by omega, rfl⟩)

end Sys2Proof.Machine

/-! # What each instruction changes (R12 to R15, R19, R22) -/

namespace Sys2Proof.Machine

/-! ## The general registers -/

/-- The effect of an instruction keeps every register that R12 does not let it write. -/
theorem getV_effect {i : Instr} {s : State} {r : Reg} (hw : writesV i r = false) :
    (effect i s).getV r = s.getV r := by
  cases i
  case ldImm x _ | addImm x _ | rnd x _ | ldReg x _ | orReg x _ | andReg x _ | xorReg x _ | ldVxDT x =>
    have hx : r ≠ x := by simpa [writesV] using hw
    simp [effect, getV_setV_other _ hx]
  case addReg x _ | subReg x _ | shr x _ | subnReg x _ | shl x _ =>
    obtain ⟨hx, hF⟩ : r ≠ x ∧ r ≠ VF := by simpa [writesV] using hw
    simp [effect, getV_setFlagThenResult, hx, hF]
  case drw x y n =>
    have hF : r ≠ VF := by simpa [writesV] using hw
    simp [effect, getV_setV_other _ hF]
  case ldVxMem x =>
    have hx : x < r := by simpa [writesV] using hw
    simp [effect, getV_loadRegsUpTo, hx]
  all_goals simp [effect]

/-- Which fault an instruction raises does not depend on the general registers (R180). -/
@[simp] theorem faultOf_setV (i : Instr) (s : State) (r : Reg) (b : Byte) : faultOf i (s.setV r b) = faultOf i s := by
  cases i <;> rfl

theorem setFlagThenResult_setV {s : State} {r x : Reg} (hx : r ≠ x) (hF : r ≠ VF) (b : Byte) (flag : Bool)
    (res : Byte) : (s.setV r b).setFlagThenResult x flag res = (s.setFlagThenResult x flag res).setV r b := by
  rw [State.setFlagThenResult, setV_comm s hF, setV_comm _ hx, ← State.setFlagThenResult]

theorem advance_setV (s : State) (r : Reg) (b : Byte) : (s.setV r b).advance = s.advance.setV r b := rfl

theorem drawn_setV {s : State} {r x y : Reg} {b : Byte} (hx : (s.setV r b).getV x = s.getV x)
    (hy : (s.setV r b).getV y = s.getV y) (n : Nat) : (s.setV r b).drawn x y n = s.drawn x y n := by
  rw [State.drawn, hx, hy]
  rfl

/-- A register an instruction neither reads nor writes keeps out of its effect (R12). -/
theorem effect_setV {i : Instr} {s : State} {r : Reg} (b : Byte) (hr : readsV i r = false)
    (hw : writesV i r = false) : effect i (s.setV r b) = (effect i s).setV r b := by
  have get : ∀ q : Reg, readsV i q = true → (s.setV r b).getV q = s.getV q := fun q hq =>
    getV_setV_other s (by rintro rfl; simp [hr] at hq) b
  have put : ∀ (t : State) (q : Reg) (c : Byte), writesV i q = true →
      (t.setV r b).setV q c = (t.setV q c).setV r b := fun t q c hq =>
    setV_comm t (by rintro rfl; simp [hw] at hq) b c
  cases i
  case seImm x _ | sneImm x _ | skp x | sknp x | ldDTVx x | ldSTVx x | addIVx x | ldFVx x | ldBVx x =>
    simp only [effect, get x (by simp [readsV])]
    rfl
  case seReg x y | sneReg x y =>
    simp only [effect, get x (by simp [readsV]), get y (by simp [readsV])]
    rfl
  case jpV0 nnn =>
    simp only [effect, get 0 rfl]
    rfl
  case ldImm x c | rnd x c | ldVxDT x =>
    simp only [effect, put s x _ (by simp [writesV])]
    rfl
  case addImm x _ =>
    simp only [effect, get x (by simp [readsV]), put s x _ (by simp [writesV])]
    rfl
  case ldReg x y =>
    simp only [effect, get y (by simp [readsV]), put s x _ (by simp [writesV])]
    rfl
  case orReg x y | andReg x y | xorReg x y =>
    simp only [effect, get x (by simp [readsV]), get y (by simp [readsV]), put s x _ (by simp [writesV])]
    rfl
  case addReg x y | subReg x y | subnReg x y =>
    obtain ⟨hx, hF⟩ : r ≠ x ∧ r ≠ VF := by simpa [writesV] using hw
    simp only [effect, get x (by simp [readsV]), get y (by simp [readsV]), setFlagThenResult_setV hx hF]
    rfl
  case shr x y | shl x y =>
    obtain ⟨hx, hF⟩ : r ≠ x ∧ r ≠ VF := by simpa [writesV] using hw
    simp only [effect, get x (by simp [readsV]), setFlagThenResult_setV hx hF]
    rfl
  case drw x y n =>
    simp only [effect, drawn_setV (get x (by simp [readsV])) (get y (by simp [readsV]))]
    exact congrArg State.advance (put (s.setFb (s.drawn x y n).1) VF _ rfl)
  case ldMemVx x =>
    simp only [effect, regsUpTo_setV s b (by simpa [readsV] using hr)]
    rfl
  case ldVxMem x =>
    simp only [effect, loadRegsUpTo_setV s b (by simpa [writesV] using hw), advance_setV]
  all_goals rfl

/-! ## The system state -/

theorem writer_of_index_ne {i : Instr} {s : State} (h : (effect i s).index ≠ s.index) :
    (∃ a, i = .ldI a) ∨ (∃ x, i = .addIVx x) ∨ ∃ x, i = .ldFVx x := by
  cases i
  case ldI a => exact .inl ⟨a, rfl⟩
  case addIVx x => exact .inr (.inl ⟨x, rfl⟩)
  case ldFVx x => exact .inr (.inr ⟨x, rfl⟩)
  all_goals simp [effect] at h

theorem writer_of_dt_ne {i : Instr} {s : State} (h : (effect i s).dt ≠ s.dt) : ∃ x, i = .ldDTVx x := by
  cases i
  case ldDTVx x => exact ⟨x, rfl⟩
  all_goals simp [effect] at h

theorem writer_of_st_ne {i : Instr} {s : State} (h : (effect i s).st ≠ s.st) : ∃ x, i = .ldSTVx x := by
  cases i
  case ldSTVx x => exact ⟨x, rfl⟩
  all_goals simp [effect] at h

theorem writer_of_stack_ne {i : Instr} {s : State} (h : (effect i s).sp ≠ s.sp ∨ (effect i s).stk ≠ s.stk) :
    i = .ret ∨ ∃ a, i = .call a := by
  cases i
  case ret => exact .inl rfl
  case call a => exact .inr ⟨a, rfl⟩
  all_goals simp [effect] at h

theorem writer_of_fb_ne {i : Instr} {s : State} (h : (effect i s).fb ≠ s.fb) : i = .cls ∨ ∃ x y n, i = .drw x y n := by
  cases i
  case cls => exact .inl rfl
  case drw x y n => exact .inr ⟨x, y, n, rfl⟩
  all_goals simp [effect] at h

theorem writer_of_draws_ne {i : Instr} {s : State} (h : (effect i s).draws ≠ s.draws) :
    (∃ x b, i = .rnd x b) ∨ (∃ x, i = .skp x) ∨ ∃ x, i = .sknp x := by
  cases i
  case rnd x b => exact .inl ⟨x, b, rfl⟩
  case skp x => exact .inr (.inl ⟨x, rfl⟩)
  case sknp x => exact .inr (.inr ⟨x, rfl⟩)
  all_goals simp [effect] at h

theorem writer_of_mem_ne {i : Instr} {s : State} (h : (effect i s).mem ≠ s.mem) :
    (∃ x, i = .ldBVx x) ∨ ∃ x, i = .ldMemVx x := by
  cases i
  case ldBVx x => exact .inl ⟨x, rfl⟩
  case ldMemVx x => exact .inr ⟨x, rfl⟩
  all_goals simp [effect] at h

end Sys2Proof.Machine

/-! # VF and the program counter after an instruction (R11, R14, R26(h)) -/

namespace Sys2Proof.Machine

theorem flagByte_zero_or_one (c : Bool) : flagByte c = 0 ∨ flagByte c = 1 := by
  cases c
  · exact .inl rfl
  · exact .inr rfl

/-- With a destination other than VF the flag is what VF ends with (R61). -/
theorem getV_VF_setFlagThenResult (s : State) {x : Reg} (hx : x ≠ VF) (flag : Bool) (b : Byte) :
    (s.setFlagThenResult x flag b).getV VF = flagByte flag := by
  rw [getV_setFlagThenResult, if_neg hx.symm, if_pos rfl]

/-- The six instructions of R11 leave in VF a byte that `flagByte` made. -/
theorem getV_VF_effect {i : Instr} (s : State) (h : writesFlagToVF i = true) :
    ∃ c, (effect i s).getV VF = flagByte c := by
  cases i
  case addReg x _ | subReg x _ | shr x _ | subnReg x _ | shl x _ =>
    exact ⟨_, getV_VF_setFlagThenResult s (by simpa [writesFlagToVF] using h) _ _⟩
  case drw x y n => exact ⟨_, getV_setV_same (s.setFb _) VF _⟩
  all_goals cases h

/-- The program counter of R14, row by row. -/
theorem pcAfter_effect {i : Instr} {s : State} (hf : faultOf i s = none) : pcAfter i s (effect i s).pc := by
  cases i
  case ret =>
    have hsp := sp_pos_of_faultOf_ret hf
    exact ⟨⟨s.sp.val - 1, by omega⟩, by simp only; omega, rfl⟩
  case jp nnn | call nnn => exact toNat_addrWord nnn
  case jpV0 nnn => exact toNat_jumpTarget nnn _
  case seImm | sneImm | seReg | sneReg => simp [pcAfter, effect]
  case skp x | sknp x =>
    cases hk : Config.isPressed s.draws (s.getV x) <;> simp [pcAfter, effect, State.keyAnswer, hk]
  all_goals simp [pcAfter, effect]

end Sys2Proof.Machine

/-! # What one event and a sequence of events do (R143, R172, R193) -/

namespace Sys2Proof.Machine

theorem loadProgram_of_fits {bytes : List Byte} {s : State} (h : bytes.length ≤ 3584) :
    loadProgram bytes s = (s.setMem (writeCells s.mem Config.progBase bytes)).setPc 0x200 := by
  simp [loadProgram, loadReport, h]

theorem loadProgram_of_tooLarge {bytes : List Byte} {s : State} (h : 3584 < bytes.length) :
    loadProgram bytes s = s := by
  simp [loadProgram, loadReport, Nat.not_le.2 h]

theorem keyPress_of_waiting {k : Key} {s : State} {r : Reg} (h : s.status = .waitingForKey r) :
    keyPress k s = (s.setV r (BitVec.ofNat 8 k.val)).setStatus .running := by
  simp only [keyPress, h]

theorem keyPress_of_not_waiting {k : Key} {s : State} (h : ∀ r, s.status ≠ .waitingForKey r) : keyPress k s = s := by
  cases hq : s.status with
  | waitingForKey r => exact absurd hq (h r)
  | running => simp only [keyPress, hq]
  | faulted c n => simp only [keyPress, hq]

/-- What a sequence of events answers after its first event. -/
theorem runEvents_cons_next {e : Event} {es : List Event} {s u : State} (h : runEvents (e :: es) s = .next u) :
    ∃ t, handle e s = .next t ∧ runEvents es t = .next u := by
  rw [runEvents] at h
  split at h
  · next t he => exact ⟨t, he, h⟩
  · cases h
  · cases h

/-- A property that every event keeps is kept by every sequence of events (R172). -/
theorem runEvents_induction {P : State → Prop} (hP : ∀ e s t, P s → handle e s = .next t → P t) {es : List Event}
    {s t : State} (hs : P s) (h : runEvents es s = .next t) : P t := by
  induction es generalizing s with
  | nil => cases h; exact hs
  | cons e es ih =>
    obtain ⟨u, he, hu⟩ := runEvents_cons_next h
    exact ih (hP e s u hs he) hu

end Sys2Proof.Machine

/-! # The invariant of R26 -/

namespace Sys2Proof.Machine

/-- The invariant reads memory, PC and the stack, and nothing else. -/
theorem Inv.congr {s t : State} (h : Inv s) (hmem : t.mem = s.mem) (hpc : t.pc = s.pc) (hsp : t.sp = s.sp)
    (hstk : t.stk = s.stk) : Inv t where
  memory := hmem ▸ h.memory
  pc := by
    have := h.pc
    rwa [State.pcInRange, hpc]
  stack := by
    have := h.stack
    rwa [State.stackInRange, hsp, hstk]

theorem inv_takeFault {s : State} (h : Inv s) (c : FaultCause) (n : Nat) : Inv (takeFault c n s) :=
  h.congr rfl rfl rfl rfl

theorem inv_reset : Inv State.reset where
  memory := rfl
  pc := by unfold State.pcInRange; decide
  stack := fun _ hk => absurd hk (Nat.not_lt_zero _)

/-! ## One instruction -/

/-- An instruction that does not fault writes memory only where the block it checked lies. -/
theorem wf_mem_effect {i : Instr} {s : State} (h : s.mem.wf = true) (hf : faultOf i s = none) :
    (effect i s).mem.wf = true := by
  by_cases hm : (effect i s).mem = s.mem
  · rwa [hm]
  obtain ⟨x, rfl⟩ | ⟨x, rfl⟩ := writer_of_mem_ne hm
  · have hI : ¬ s.index.toNat + 2 > 4095 := fun hgt => by simp [faultOf, hgt] at hf
    exact wf_writeCells h (by simp only [length_bcdDigits, Config.memSize]; omega)
  · have hI : ¬ s.index.toNat + x.val > 4095 := fun hgt => by simp [faultOf, hgt] at hf
    exact wf_writeCells h (by simp only [length_regsUpTo, Config.memSize]; omega)

/-- Every program counter of R14 that an instruction fetched at PC ≤ 4094 can leave is in 0 to 0x10FE. -/
theorem toNat_le_of_pcAfter {i : Instr} {s : State} {w : Word} (hpc : s.pc.toNat ≤ 4094) (hstk : s.stackInRange)
    (h : pcAfter i s w) : w.toNat ≤ 0x10FE := by
  have h2 : (s.pc + 2).toNat = s.pc.toNat + 2 := by bv_omega
  have h4 : (s.pc + 4).toNat = s.pc.toNat + 4 := by bv_omega
  cases i
  case ret =>
    obtain ⟨k, hk, rfl⟩ := h
    have := (hstk k (by omega)).2
    omega
  case jp nnn | call nnn =>
    have hn := nnn.isLt
    rw [show w.toNat = nnn.toNat from h]
    omega
  case jpV0 nnn =>
    have hn := nnn.isLt
    have hv := (s.getV 0).isLt
    rw [show w.toNat = nnn.toNat + (s.getV 0).toNat from h]
    omega
  case seImm | sneImm | seReg | sneReg | skp | sknp =>
    rw [show w = _ from h]
    split <;> omega
  all_goals
    rw [show w = s.pc + 2 from h]
    omega

/-- CALL pushes `npc`, which is 2 to 4096, and RET only gives slots up. -/
theorem stackInRange_effect {i : Instr} {s : State} (hpc : s.pc.toNat ≤ 4094) (h : s.stackInRange)
    (hf : faultOf i s = none) : (effect i s).stackInRange := by
  by_cases hk : (effect i s).sp ≠ s.sp ∨ (effect i s).stk ≠ s.stk
  · obtain rfl | ⟨nnn, rfl⟩ := writer_of_stack_ne hk
    · intro k hlt
      have hlt' : k.val < s.sp.val - 1 := hlt
      exact h k (by omega)
    · have hsp := sp_lt_of_faultOf_call hf
      rw [effect_call nnn hsp]
      intro k hlt
      have hlt' : k.val < s.sp.val + 1 := hlt
      have hnpc : s.npc.toNat = s.pc.toNat + 2 := by simp only [State.npc]; bv_omega
      simp only [setPc_stk, setStack_stk, Fin.getElem_fin, Vector.getElem_set]
      split
      · omega
      · exact h k (by omega)
  · obtain ⟨hsp, hstk⟩ := not_or.1 hk
    rwa [State.stackInRange, not_not.1 hsp, not_not.1 hstk]

theorem inv_exec {s t : State} {i : Instr} (h : Inv s) (hpc : s.pc.toNat ≤ 4094) (he : exec i s = .next t) : Inv t := by
  obtain ⟨c, n, -, rfl⟩ | ⟨hf, rfl⟩ := exec_next_cases he
  · exact inv_takeFault h c n
  · exact ⟨wf_mem_effect h.memory hf, toNat_le_of_pcAfter hpc h.stack (pcAfter_effect hf),
      stackInRange_effect hpc h.stack hf⟩

/-! ## One event -/

theorem inv_step {s t : State} (h : Inv s) (hs : step s = .next t) : Inv t := by
  obtain ⟨-, he⟩ | ⟨-, -, he⟩ | ⟨-, -, -, he⟩ | ⟨-, hpc, i, -, he⟩ := step_cases s
  · cases he.symm.trans hs
    exact h
  · cases he.symm.trans hs
    exact inv_takeFault h _ _
  · cases he.symm.trans hs
    exact inv_takeFault h _ _
  · exact inv_exec h hpc (he.symm.trans hs)

theorem inv_hostReset (s : State) : Inv (hostReset s) := inv_reset.congr rfl rfl rfl rfl

theorem inv_loadProgram {s : State} (h : Inv s) (bytes : List Byte) : Inv (loadProgram bytes s) := by
  by_cases hlen : bytes.length ≤ 3584
  · rw [loadProgram_of_fits hlen]
    exact ⟨wf_writeCells h.memory (by simp only [Config.progBase, Config.memSize]; omega),
      by simp [State.pcInRange], h.stack⟩
  · rwa [loadProgram_of_tooLarge (by omega)]

theorem inv_tickTimers {s : State} (h : Inv s) : Inv (tickTimers s) := h.congr rfl rfl rfl rfl

theorem inv_keyPress {s : State} (h : Inv s) (k : Key) : Inv (keyPress k s) := by
  by_cases hw : ∃ r, s.status = .waitingForKey r
  · obtain ⟨r, hr⟩ := hw
    rw [keyPress_of_waiting hr]
    exact h.congr rfl rfl rfl rfl
  · rwa [keyPress_of_not_waiting fun r hr => hw ⟨r, hr⟩]

theorem inv_handle {e : Event} {s t : State} (h : Inv s) (he : handle e s = .next t) : Inv t := by
  cases e with
  | step => exact inv_step h he
  | reset => cases he; exact inv_hostReset s
  | loadProgram bytes => cases he; exact inv_loadProgram h bytes
  | tickTimers => cases he; exact inv_tickTimers h
  | keyPress k => cases he; exact inv_keyPress h k

end Sys2Proof.Machine

/-! # The obligations of spec/10_state.md -/

namespace Sys2Proof.Machine

/-- Settles O16. -/
theorem resetMeetsTheInvariant : Obligations.ResetMeetsTheInvariant := inv_reset

/-- Settles O17: a fault keeps memory, PC and the stack, and the effect of the decoded instruction keeps each clause of
the invariant. -/
theorem everyStepKeepsTheInvariant : Obligations.EveryStepKeepsTheInvariant := fun _ _ h hs => inv_step h hs

/-- Settles O18, by induction on the events: each of the five keeps the invariant. -/
theorem everySequenceOfEventsKeepsTheInvariant : Obligations.EverySequenceOfEventsKeepsTheInvariant := fun _ _ _ h hr =>
  runEvents_induction (fun _ _ _ hs he => inv_handle hs he) h hr

/-- Settles O19: a fault writes no register, and the effect only those of R12. -/
theorem onlyNamedRegistersAreWritten : Obligations.OnlyNamedRegistersAreWritten := by
  intro i s t r h hw
  obtain ⟨c, n, -, rfl⟩ | ⟨-, rfl⟩ := exec_next_cases h
  · exact getV_takeFault s c n r
  · exact getV_effect hw

/-- Settles O20: the register decides neither whether the instruction faults nor what its effect is. -/
theorem unreadRegistersDoNotMatter : Obligations.UnreadRegistersDoNotMatter := by
  intro i s t r b hr hw h
  obtain ⟨c, n, hf, rfl⟩ | ⟨hf, rfl⟩ := exec_next_cases h
  · exact exec_eq_takeFault ((faultOf_setV i s r b).trans hf)
  · rw [exec_eq_effect ((faultOf_setV i s r b).trans hf), effect_setV b hr hw]

/-- Settles O22: a fault changes none of it, and the effect of each instruction only its own. -/
theorem onlyTheirOwnInstructionsWriteSystemState : Obligations.OnlyTheirOwnInstructionsWriteSystemState := by
  intro i s t h
  obtain ⟨c, n, -, rfl⟩ | ⟨-, rfl⟩ := exec_next_cases h
  · simp
  · exact ⟨writer_of_index_ne, writer_of_dt_ne, writer_of_st_ne, writer_of_stack_ne, writer_of_fb_ne,
      writer_of_draws_ne⟩

/-- Settles O23: the effect leaves the PC of R14, and a fault leaves PC alone (R165). -/
theorem programCounterAfterEveryInstruction : Obligations.ProgramCounterAfterEveryInstruction := by
  intro i s t h
  obtain ⟨c, n, hf, rfl⟩ | ⟨hf, rfl⟩ := exec_next_cases h
  · exact ⟨fun hnone => by simp [hf] at hnone, fun _ => takeFault_pc s c n⟩
  · exact ⟨fun _ => pcAfter_effect hf, fun hsome => absurd hf hsome⟩

/-- Settles O24: VF ends as a flag byte (R100). -/
theorem flagWritersLeaveZeroOrOneInVF : Obligations.FlagWritersLeaveZeroOrOneInVF := by
  intro i s t hi hf h
  cases (exec_eq_effect hf).symm.trans h
  obtain ⟨c, hc⟩ := getV_VF_effect s hi
  exact hc ▸ flagByte_zero_or_one c

end Sys2Proof.Machine

/-! # Fetch, access through I, and stores (spec/20_memory.md) -/

namespace Sys2Proof.Machine

/-! ## Fetch -/

/-- A fetch outside memory comes before any decoding (R41, R167). -/
theorem step_of_fetchOutside {s : State} (hs : s.status = .running) (hpc : 4094 < s.pc.toNat) :
    step s = .next (takeFault .addressError (max s.pc.toNat 4096) s) := by
  obtain ⟨hq, -⟩ | ⟨-, -, he⟩ | ⟨-, hle, -⟩ | ⟨-, hle, -⟩ := step_cases s
  · exact absurd hs hq
  · exact he
  · omega
  · omega

/-- A step runs the instruction that the word at PC forms (R60). -/
theorem step_of_decodeWord {s : State} {i : Instr} (hs : s.status = .running) (hpc : s.pc.toNat ≤ 4094)
    (hd : decodeWord s.wordAtPc = .ok i) : step s = exec i s := by
  obtain ⟨hq, -⟩ | ⟨-, hgt, -⟩ | ⟨-, -, ⟨e, herr⟩, -⟩ | ⟨-, -, j, hj, he⟩ := step_cases s
  · exact absurd hs hq
  · omega
  · cases hd.symm.trans herr
  · cases hd.symm.trans hj
    exact he

/-! ## Precise faults -/

theorem faultsWith_takeFault (c : FaultCause) (n : Nat) (s : State) : faultsWith c n s (takeFault c n s) := ⟨rfl, rfl⟩

theorem exec_faultsWith {i : Instr} {s : State} {c : FaultCause} {n : Nat} (hf : faultOf i s = some (c, n)) :
    ∃ t, exec i s = .next t ∧ faultsWith c n s t :=
  ⟨_, exec_eq_takeFault hf, faultsWith_takeFault c n s⟩

/-! ## The memory frame -/

theorem sameMemory_of_mem_eq {s t : State} (h : t.mem = s.mem) : sameMemory s t := fun a => by
  rw [State.readByte, State.readByte, h]

/-! ## Fx55 -/

/-- What Fx55 answers when its block is in range (R124). -/
theorem exec_ldMemVx {x : Reg} {s : State} (h : s.index.toNat + x.val ≤ 4095) :
    exec (.ldMemVx x) s = .next (s.storeAtIndex (s.regsUpTo x)).advance :=
  exec_eq_effect (if_neg (Nat.not_lt.2 h))

/-- After the store, V[r] stands at I + r (R124). -/
theorem readByte_storeAtIndex_regsUpTo {s : State} {x r : Reg} (hm : s.mem.wf = true)
    (h : s.index.toNat + x.val ≤ 4095) (hr : r ≤ x) :
    (s.storeAtIndex (s.regsUpTo x)).readByte (s.index.toNat + r.val) = s.getV r := by
  have hr' : r.val ≤ x.val := hr
  rw [readByte_storeAtIndex_block hm (by rw [length_regsUpTo]; omega),
    if_pos (by rw [length_regsUpTo]; omega), Nat.add_sub_cancel_left, getD_regsUpTo s x r hr']

/-- When the store lands on the next instruction, V0 and V1 are its high and low byte (R44, R52). -/
theorem wordAtPc_after_store {s : State} {x : Reg} (hm : s.mem.wf = true) (hpc : s.pc.toNat ≤ 4092)
    (hI : s.index.toNat = s.pc.toNat + 2) (h : s.index.toNat + x.val ≤ 4095) (hx : 1 ≤ x) :
    (s.storeAtIndex (s.regsUpTo x)).advance.wordAtPc = s.getV 0 ++ s.getV 1 := by
  have hnext : (s.pc + 2).toNat = s.index.toNat := by bv_omega
  have h0 := readByte_storeAtIndex_regsUpTo hm h (Fin.zero_le x)
  have h1 := readByte_storeAtIndex_regsUpTo hm h hx
  simp only [State.wordAtPc, wordOfBytes, readByte_advance, advance_pc, storeAtIndex_pc, hnext]
  exact congrArg₂ (· ++ ·) h0 h1

end Sys2Proof.Machine

/-! # The obligations of spec/20_memory.md -/

namespace Sys2Proof.Machine

/-- Settles O21: a fault keeps memory, and an effect that changes it is that of Fx33 or Fx55. -/
theorem onlyBcdAndRegisterStoreWriteMemory : Obligations.OnlyBcdAndRegisterStoreWriteMemory := by
  intro i s t hB hM h
  apply sameMemory_of_mem_eq
  obtain ⟨c, n, -, rfl⟩ | ⟨-, rfl⟩ := exec_next_cases h
  · exact takeFault_mem s c n
  · by_contra hne
    obtain ⟨x, hi⟩ | ⟨x, hi⟩ := writer_of_mem_ne hne
    · exact hB x hi
    · exact hM x hi

/-- Settles O47: the store leaves PC at I with the word of V0 and V1 there, and the step decodes that word. -/
theorem storedInstructionRunsNext : Obligations.StoredInstructionRunsNext := by
  intro x i s t hm hs hpc hI hr hx hd h
  cases (exec_ldMemVx hr).symm.trans h
  have hnext : (s.pc + 2).toNat ≤ 4094 := by bv_omega
  exact step_of_decodeWord hs hnext (by rwa [wordAtPc_after_store hm hpc hI hr hx])

/-- Settles O9: the fault's info is `max PC 4096`, which is PC but at 4095. -/
theorem fetchOutsideMemoryIsAnAddressError : Obligations.FetchOutsideMemoryIsAnAddressError := by
  intro s hs hpc
  have hinfo : (if s.pc.toNat = 4095 then 4096 else s.pc.toNat) = max s.pc.toNat 4096 := by split <;> omega
  rw [hinfo]
  exact ⟨_, step_of_fetchOutside hs hpc, faultsWith_takeFault _ _ s⟩

/-- Settles O45: each of the four accesses meets its row of R180. -/
theorem accessThroughIndexOutsideMemoryFaults : Obligations.AccessThroughIndexOutsideMemoryFaults := by
  intro x y n s
  exact ⟨fun hB => exec_faultsWith (if_pos hB),
    fun hV => ⟨exec_faultsWith (if_pos hV), exec_faultsWith (if_pos hV)⟩,
    fun hn hD => exec_faultsWith (if_pos ⟨hn, hD⟩)⟩

end Sys2Proof.Machine

/-! # The decoder, the encoder and the opcode map (spec/30_encoding.md) -/

namespace Sys2Proof

/-! ## Decoding an encoded instruction -/

/-- The laws of the 34 rows, together (R62, R63, R65). -/
theorem decodeWord_encode {i : Instr} (h : i.wf = true) : decodeWord (encode i) = .ok i := by
  open Laws.RoundTrip in
  cases i with
  | cls => exact cls h
  | ret => exact ret h
  | jp nnn => exact jp nnn h
  | call nnn => exact call nnn h
  | seImm x nn => exact seImm x nn h
  | sneImm x nn => exact sneImm x nn h
  | seReg x y => exact seReg x y h
  | ldImm x nn => exact ldImm x nn h
  | addImm x nn => exact addImm x nn h
  | ldReg x y => exact ldReg x y h
  | orReg x y => exact orReg x y h
  | andReg x y => exact andReg x y h
  | xorReg x y => exact xorReg x y h
  | addReg x y => exact addReg x y h
  | subReg x y => exact subReg x y h
  | shr x y => exact shr x y h
  | subnReg x y => exact subnReg x y h
  | shl x y => exact shl x y h
  | sneReg x y => exact sneReg x y h
  | ldI nnn => exact ldI nnn h
  | jpV0 nnn => exact jpV0 nnn h
  | rnd x nn => exact rnd x nn h
  | drw x y n => exact drw x y n h
  | skp x => exact skp x h
  | sknp x => exact sknp x h
  | ldVxDT x => exact ldVxDT x h
  | ldVxK x => exact ldVxK x h
  | ldDTVx x => exact ldDTVx x h
  | ldSTVx x => exact ldSTVx x h
  | addIVx x => exact addIVx x h
  | ldFVx x => exact ldFVx x h
  | ldBVx x => exact ldBVx x h
  | ldMemVx x => exact ldMemVx x h
  | ldVxMem x => exact ldVxMem x h

/-- A word in memory order decodes as the word does, and what follows is left over (R44). -/
theorem decode_bytesOfWord {w : Word} {i : Instr} (h : decodeWord w = .ok i) (rest : List Byte) :
    decode (bytesOfWord w ++ rest) = .ok (i, rest) := by
  simp only [bytesOfWord, List.cons_append, List.nil_append, decode, wordOfBytes_bytes, h]

/-! ## A word whose fixed fields are known -/

theorem formatA_of_fieldOp {w : Word} {op : BitVec 4} (hop : fieldOp w = op) : formatA op (fieldNNN w) = w :=
  hop ▸ formatA_fields w

theorem formatXK_of_fieldOp {w : Word} {op : BitVec 4} (hop : fieldOp w = op) :
    formatXK op (fieldX w) (fieldNN w) = w := hop ▸ formatXK_fields w

theorem formatXK_of_fieldNN {w : Word} {op : BitVec 4} {nn : Byte} (hop : fieldOp w = op) (hnn : fieldNN w = nn) :
    formatXK op (fieldX w) nn = w := hnn ▸ formatXK_of_fieldOp hop

theorem formatXYN_of_fieldN {w : Word} {op n : BitVec 4} (hop : fieldOp w = op) (hn : fieldN w = n) :
    formatXYN op (fieldX w) (fieldY w) n = w := by
  subst hop hn
  exact formatXYN_fields w

/-! ## The rows of R65 -/

/-- Two rows differ in a bit that both masks keep. -/
theorem opcodeRows_disjoint : opcodeRows.Pairwise fun r r' => r.bits &&& r'.mask ≠ r'.bits &&& r.mask := by decide

theorem opcodeRow_unique {w : Word} {r r' : OpcodeRow} (hr : r ∈ opcodeRows) (hr' : r' ∈ opcodeRows)
    (h : w &&& r.mask = r.bits) (h' : w &&& r'.mask = r'.bits) : r = r' := by
  by_contra hne
  have : Std.Symm fun r r' : OpcodeRow => r.bits &&& r'.mask ≠ r'.bits &&& r.mask := ⟨fun _ _ => Ne.symm⟩
  refine opcodeRows_disjoint.forall hr hr' hne ?_
  rw [← h, ← h', BitVec.and_assoc, BitVec.and_assoc, BitVec.and_comm r.mask]

/-- Which fields the row of an instruction fixes (R65): all 16 bits, `op` with `n` or `nn` as the minor opcode, or `op`
alone. -/
def maskOf : Instr → Word
  | .cls | .ret => 0xFFFF
  | .seReg _ _ | .sneReg _ _ | .ldReg _ _ | .orReg _ _ | .andReg _ _ | .xorReg _ _ => 0xF00F
  | .addReg _ _ | .subReg _ _ | .shr _ _ | .subnReg _ _ | .shl _ _ => 0xF00F
  | .skp _ | .sknp _ | .ldVxDT _ | .ldVxK _ | .ldDTVx _ | .ldSTVx _ => 0xF0FF
  | .addIVx _ | .ldFVx _ | .ldBVx _ | .ldMemVx _ | .ldVxMem _ => 0xF0FF
  | .jp _ | .call _ | .ldI _ | .jpV0 _ | .drw _ _ _ => 0xF000
  | .seImm _ _ | .sneImm _ _ | .ldImm _ _ | .addImm _ _ | .rnd _ _ => 0xF000

/-- The row of R65 an instruction belongs to. -/
def rowOf (i : Instr) : OpcodeRow := ⟨mnemonicOf i, maskOf i, encode i &&& maskOf i⟩

/-- The masked word of an instruction does not depend on its operands, and is the row's `match`. -/
theorem rowOf_mem (i : Instr) : rowOf i ∈ opcodeRows := by
  cases i
  case cls | ret => decide
  case jp | call | ldI | jpV0 | seImm | sneImm | ldImm | addImm | rnd | drw =>
    simp only [rowOf, maskOf, mnemonicOf, encode, and_F000, fieldOp_formatA, fieldOp_formatXK, fieldOp_formatXYN]
    decide
  case skp | sknp | ldVxDT | ldVxK | ldDTVx | ldSTVx | addIVx | ldFVx | ldBVx | ldMemVx | ldVxMem =>
    simp only [rowOf, maskOf, mnemonicOf, encode, and_F0FF, fieldOp_formatXK, fieldNN_formatXK]
    decide
  all_goals
    simp only [rowOf, maskOf, mnemonicOf, encode, and_F00F, fieldOp_formatXYN, fieldN_formatXYN]
    decide

end Sys2Proof

namespace Sys2Proof.Machine

/-! ## The illegal words by their fields (R66) -/

/-- `illegalWord` over the fields of R62. -/
theorem illegalWord_iff (w : Word) : illegalWord w = true ↔
    (fieldOp w = 0 ∧ w ≠ 0x00E0 ∧ w ≠ 0x00EE) ∨ (fieldOp w = 5 ∧ fieldN w ≠ 0) ∨
    (fieldOp w = 8 ∧ fieldN w ∈ [8, 9, 0xA, 0xB, 0xC, 0xD, 0xF]) ∨ (fieldOp w = 9 ∧ fieldN w ≠ 0) ∨
    (fieldOp w = 0xE ∧ fieldNN w ∉ [0x9E, 0xA1]) ∨
    (fieldOp w = 0xF ∧ fieldNN w ∉ [0x07, 0x0A, 0x15, 0x18, 0x1E, 0x29, 0x33, 0x55, 0x65]) := by
  simp [illegalWord, ← toNat_fieldOp, ← toNat_fieldN, ← toNat_fieldNN, ← BitVec.toNat_inj, or_assoc, and_assoc]

/-- In groups 5, 8 and 9 the minor opcode `n` decides. -/
theorem illegalWord_eq_of_minorN {w w' : Word} (hop : fieldOp w = fieldOp w') (hn : fieldN w = fieldN w')
    (h : fieldOp w' ∈ [5, 8, 9]) : illegalWord w = illegalWord w' := by
  rw [Bool.eq_iff_iff, illegalWord_iff, illegalWord_iff, hop, hn]
  simp only [List.mem_cons, List.not_mem_nil, or_false] at h
  obtain h | h | h := h <;> simp [h]

/-- In groups E and F the minor opcode `nn` decides. -/
theorem illegalWord_eq_of_minorNN {w w' : Word} (hop : fieldOp w = fieldOp w') (hnn : fieldNN w = fieldNN w')
    (h : fieldOp w' ∈ [0xE, 0xF]) : illegalWord w = illegalWord w' := by
  rw [Bool.eq_iff_iff, illegalWord_iff, illegalWord_iff, hop, hnn]
  simp only [List.mem_cons, List.not_mem_nil, or_false] at h
  obtain h | h := h <;> simp [h]

theorem illegalWord_eq_false_of_op {w : Word} (h : fieldOp w ∉ [0, 5, 8, 9, 0xE, 0xF]) : illegalWord w = false := by
  rw [← Bool.not_eq_true, illegalWord_iff]
  simp_all

/-- A row of group 0 fixes the whole word, one of groups 5, 8 and 9 the minor opcode `n`, one of groups E and F the
minor opcode `nn`; a group without a minor opcode has no illegal word. -/
theorem opcodeRows_masks : ∀ r ∈ opcodeRows, illegalWord r.bits = false ∧
    (r.mask = 0xFFFF ∨
    (r.mask = 0xF000 ∧ fieldOp r.bits ∉ [0, 5, 8, 9, 0xE, 0xF]) ∨
    (r.mask = 0xF00F ∧ fieldOp r.bits ∈ [5, 8, 9]) ∨
    (r.mask = 0xF0FF ∧ fieldOp r.bits ∈ [0xE, 0xF])) := by decide

/-- A word that matches a row is in no group of R66: the mask keeps every field that the word's group is read from. -/
theorem illegalWord_eq_false_of_row {r : OpcodeRow} (hr : r ∈ opcodeRows) {w : Word} (h : w &&& r.mask = r.bits) :
    illegalWord w = false := by
  obtain ⟨hbits, hm | ⟨hm, hop⟩ | ⟨hm, hop⟩ | ⟨hm, hop⟩⟩ := opcodeRows_masks r hr
  · have hw : w = r.bits := by rw [← h, hm]; exact BitVec.and_allOnes.symm
    rw [hw, hbits]
  · rw [hm, and_F000] at h
    rw [← h, fieldOp_formatA] at hop
    exact illegalWord_eq_false_of_op hop
  · rw [hm, and_F00F] at h
    rw [← hbits]
    exact illegalWord_eq_of_minorN (by simp [← h]) (by simp [← h]) hop
  · rw [hm, and_F0FF] at h
    rw [← hbits]
    exact illegalWord_eq_of_minorNN (by simp [← h]) (by simp [← h]) hop

/-! ## Everything the decoder can answer -/

/-- What an answer of the decoder says of the word it was given: the word is the instruction's own (R63) and the
instruction well-formed, or the word is in a group of R66 and the error records it. -/
def Faithful (w : Word) : Except DecodeError Instr → Prop
  | .ok i => encode i = w ∧ i.wf = true
  | .error e => e = .badOpcode w ∧ illegalWord w = true

theorem faithful_decodeGroup0 {w : Word} (hop : fieldOp w = 0) : Faithful w (decodeGroup0 w) := by
  unfold decodeGroup0
  split
  · exact ⟨rfl, rfl⟩
  · exact ⟨rfl, rfl⟩
  · next h h' => exact ⟨rfl, (illegalWord_iff w).2 (.inl ⟨hop, h, h'⟩)⟩

/-- 5xy0 and 9xy0: the minor opcode is `n = 0`. -/
theorem faithful_ifMinorZero {w : Word} {i : Instr} (hok : fieldN w = 0 → encode i = w ∧ i.wf = true)
    (hbad : fieldN w ≠ 0 → illegalWord w = true) :
    Faithful w (if fieldN w = 0 then .ok i else .error (.badOpcode w)) := by
  split
  · next hn => exact hok hn
  · next hn => exact ⟨rfl, hbad hn⟩

/-- The minor opcodes of group 8: those of R66 are the ones that R65 leaves. -/
theorem mem_illegalMinors8 :
    ∀ n : BitVec 4, n ∉ [0, 1, 2, 3, 4, 5, 6, 7, 0xE] → n ∈ [8, 9, 0xA, 0xB, 0xC, 0xD, 0xF] := by decide

theorem faithful_decodeGroup8 {w : Word} (hop : fieldOp w = 8) : Faithful w (decodeGroup8 w) := by
  unfold decodeGroup8
  split
  case h_10 =>
    have hn := mem_illegalMinors8 (fieldN w) (by simp_all)
    exact ⟨rfl, (illegalWord_iff w).2 (.inr (.inr (.inl ⟨hop, hn⟩)))⟩
  all_goals
    next hn => exact ⟨formatXYN_of_fieldN hop hn, rfl⟩

theorem faithful_decodeGroupE {w : Word} (hop : fieldOp w = 0xE) : Faithful w (decodeGroupE w) := by
  unfold decodeGroupE
  split
  case h_3 => exact ⟨rfl, (illegalWord_iff w).2 (by simp_all)⟩
  all_goals
    next hnn => exact ⟨formatXK_of_fieldNN hop hnn, rfl⟩

theorem faithful_decodeGroupF {w : Word} (hop : fieldOp w = 0xF) : Faithful w (decodeGroupF w) := by
  unfold decodeGroupF
  split
  case h_10 => exact ⟨rfl, (illegalWord_iff w).2 (by simp_all)⟩
  all_goals
    next hnn => exact ⟨formatXK_of_fieldNN hop hnn, rfl⟩

theorem eq_0xF_of_not_mem :
    ∀ op : BitVec 4, op ∉ [0, 1, 2, 3, 4, 5, 6, 7, 8, 9, 0xA, 0xB, 0xC, 0xD, 0xE] → op = 0xF := by decide

/-- By `op`, in the order of the decoder's arms. -/
theorem faithful_decodeWord (w : Word) : Faithful w (decodeWord w) := by
  unfold decodeWord
  split
  · next hop => exact faithful_decodeGroup0 hop
  · next hop => exact ⟨formatA_of_fieldOp hop, rfl⟩
  · next hop => exact ⟨formatA_of_fieldOp hop, rfl⟩
  · next hop => exact ⟨formatXK_of_fieldOp hop, rfl⟩
  · next hop => exact ⟨formatXK_of_fieldOp hop, rfl⟩
  · next hop =>
    exact faithful_ifMinorZero (fun hn => ⟨formatXYN_of_fieldN hop hn, rfl⟩)
      fun hn => (illegalWord_iff w).2 (.inr (.inl ⟨hop, hn⟩))
  · next hop => exact ⟨formatXK_of_fieldOp hop, rfl⟩
  · next hop => exact ⟨formatXK_of_fieldOp hop, rfl⟩
  · next hop => exact faithful_decodeGroup8 hop
  · next hop =>
    exact faithful_ifMinorZero (fun hn => ⟨formatXYN_of_fieldN hop hn, rfl⟩)
      fun hn => (illegalWord_iff w).2 (.inr (.inr (.inr (.inl ⟨hop, hn⟩))))
  · next hop => exact ⟨formatA_of_fieldOp hop, rfl⟩
  · next hop => exact ⟨formatA_of_fieldOp hop, rfl⟩
  · next hop => exact ⟨formatXK_of_fieldOp hop, rfl⟩
  · next hop => exact ⟨formatXYN_of_fieldN hop (by simp), by simp [Instr.wf, (fieldN w).isLt]⟩
  · next hop => exact faithful_decodeGroupE hop
  · exact faithful_decodeGroupF (eq_0xF_of_not_mem _ (by simp_all))

theorem encode_of_decodeWord {w : Word} {i : Instr} (h : decodeWord w = .ok i) : encode i = w ∧ i.wf = true := by
  have hw := faithful_decodeWord w
  rwa [h] at hw

theorem rowOf_matches {w : Word} {i : Instr} (h : decodeWord w = .ok i) : w &&& (rowOf i).mask = (rowOf i).bits := by
  rw [← (encode_of_decodeWord h).1]
  rfl

theorem illegalWord_of_decodeWord {w : Word} {i : Instr} (h : decodeWord w = .ok i) : illegalWord w = false :=
  illegalWord_eq_false_of_row (rowOf_mem i) (rowOf_matches h)

/-- Everything the decoder can answer. -/
theorem decodeWord_cases (w : Word) :
    (illegalWord w = false ∧ ∃ i, decodeWord w = .ok i) ∨
      (illegalWord w = true ∧ decodeWord w = .error (.badOpcode w)) := by
  cases hd : decodeWord w with
  | ok i => exact .inl ⟨illegalWord_of_decodeWord hd, i, rfl⟩
  | error e =>
    have hw := faithful_decodeWord w
    rw [hd] at hw
    obtain ⟨rfl, hill⟩ := hw
    exact .inr ⟨hill, rfl⟩

theorem decodeWord_of_illegal {w : Word} (h : illegalWord w = true) : decodeWord w = .error (.badOpcode w) := by
  obtain ⟨hl, -⟩ | ⟨-, hd⟩ := decodeWord_cases w
  · simp [h] at hl
  · exact hd

theorem decodeWord_of_legal {w : Word} (h : illegalWord w = false) : ∃ i, decodeWord w = .ok i := by
  obtain ⟨-, hd⟩ | ⟨hill, -⟩ := decodeWord_cases w
  · exact hd
  · simp [h] at hill

theorem decodeWord_of_row {r : OpcodeRow} (hr : r ∈ opcodeRows) {w : Word} (h : w &&& r.mask = r.bits) :
    ∃ i, decodeWord w = .ok i ∧ mnemonicOf i = r.mnemonic := by
  obtain ⟨i, hd⟩ := decodeWord_of_legal (illegalWord_eq_false_of_row hr h)
  have hri : rowOf i = r := opcodeRow_unique (rowOf_mem i) hr (rowOf_matches hd) h
  exact ⟨i, hd, hri ▸ rfl⟩

theorem decodeWord_of_no_row {w : Word} (h : ∀ r ∈ opcodeRows, w &&& r.mask ≠ r.bits) :
    decodeWord w = .error (.badOpcode w) := by
  obtain ⟨-, i, hd⟩ | ⟨-, hd⟩ := decodeWord_cases w
  · exact absurd (rowOf_matches hd) (h _ (rowOf_mem i))
  · exact hd

end Sys2Proof.Machine

/-! # Which instruction a step runs (R60) -/

namespace Sys2Proof.Machine

theorem step_of_illegalWord {s : State} (hs : s.status = .running) (hpc : s.pc.toNat ≤ 4094)
    (hill : illegalWord s.wordAtPc = true) : step s = .next (takeFault .badOpcode s.wordAtPc.toNat s) := by
  obtain ⟨hq, -⟩ | ⟨-, hgt, -⟩ | ⟨-, -, -, he⟩ | ⟨-, -, i, hd, -⟩ := step_cases s
  · exact absurd hs hq
  · omega
  · exact he
  · simp [illegalWord_of_decodeWord hd] at hill

theorem step_of_not_running {s : State} (hs : s.status ≠ .running) : step s = .next s := by
  obtain ⟨-, he⟩ | ⟨hq, -⟩ | ⟨hq, -⟩ | ⟨hq, -⟩ := step_cases s
  · exact he
  all_goals exact absurd hq hs

/-! ## A placed word (log entry 21) -/

theorem placeAddress_le (s : State) : (placeAddress s).toNat ≤ 4094 := by
  unfold placeAddress
  split
  · next h => simp only [Config.memSize] at h; omega
  · decide

theorem readByte_placeWord {s : State} (hm : s.mem.wf = true) (w : Word) (a : Nat) :
    (placeWord s w).readByte a =
      if (placeAddress s).toNat ≤ a ∧ a < (placeAddress s).toNat + 2 then
        (bytesOfWord w).getD (a - (placeAddress s).toNat) 0 else s.readByte a :=
  readCell_writeCells hm (bs := bytesOfWord w)
    (by have := placeAddress_le s; simp only [bytesOfWord, List.length_cons, List.length_nil, Config.memSize]; omega) a

theorem wordAtPc_placeWord {s : State} (hm : s.mem.wf = true) (w : Word) : (placeWord s w).wordAtPc = w := by
  have hhi : (placeWord s w).readByte (placeAddress s).toNat = highByte w := by
    simp [readByte_placeWord hm, bytesOfWord]
  have hlo : (placeWord s w).readByte ((placeAddress s).toNat + 1) = lowByte w := by
    simp [readByte_placeWord hm, bytesOfWord]
  exact (congrArg₂ wordOfBytes hhi hlo).trans (wordOfBytes_bytes w)

theorem step_placeWord {s : State} {w : Word} {i : Instr} (hm : s.mem.wf = true) (hd : decodeWord w = .ok i) :
    step (placeWord s w) = exec i (placeWord s w) :=
  step_of_decodeWord rfl (placeAddress_le s) (by rwa [wordAtPc_placeWord hm])

end Sys2Proof.Machine

/-! # The obligations of spec/30_encoding.md -/

namespace Sys2Proof.Machine

/-- Settles O1: each row's law, on the word and on its two bytes. -/
theorem decodeOfEncodeIsIdentity : Obligations.DecodeOfEncodeIsIdentity := fun _ h =>
  ⟨decodeWord_encode h, decode_bytesOfWord (decodeWord_encode h)⟩

/-- Settles O2: each arm of the decoder reads back every field of the word. -/
theorem encodeOfDecodeIsIdentity : Obligations.EncodeOfDecodeIsIdentity := fun _ _ h => encode_of_decodeWord h

/-- Settles O3: a word that matches a row is legal, and the row of what it decodes to is the only one it matches. -/
theorem decoderFollowsTheOpcodeMap : Obligations.DecoderFollowsTheOpcodeMap :=
  ⟨rfl, fun _ _ _ hr hr' h h' => opcodeRow_unique hr hr' h h', fun _ _ hr h => decodeWord_of_row hr h,
    fun _ h => decodeWord_of_no_row h, fun _ i h => ⟨rowOf i, rowOf_mem i, rfl, rowOf_matches h⟩⟩

/-- Settles O4. -/
theorem illegalWordsAreExactlyTheRejectedOnes : Obligations.IllegalWordsAreExactlyTheRejectedOnes := fun _ =>
  ⟨decodeWord_of_illegal, decodeWord_of_legal⟩

/-- Settles O7: the placed word is the word at PC, and it decodes to the instruction (O1). -/
theorem placedInstructionRunsNext : Obligations.PlacedInstructionRunsNext := by
  intro s i hm hi
  rw [State.withFetchWord, tableWord_toNat]
  exact step_placeWord hm (decodeWord_encode hi)

/-- Settles O6. -/
theorem stepRunsTheDecodedInstruction : Obligations.StepRunsTheDecodedInstruction := fun _ _ hs hpc hd =>
  step_of_decodeWord hs hpc hd

/-- Settles O8. -/
theorem stepOutsideRunningChangesNothing : Obligations.StepOutsideRunningChangesNothing := fun _ hs =>
  step_of_not_running hs

/-- Settles O10: an illegal word is one the decoder rejects (O4). -/
theorem illegalWordIsABadOpcodeFault : Obligations.IllegalWordIsABadOpcodeFault := by
  rintro s w hs hpc rfl hill
  exact ⟨_, step_of_illegalWord hs hpc hill, faultsWith_takeFault _ _ s⟩

end Sys2Proof.Machine

/-! # Control transfer (spec/40_control.md) -/

namespace Sys2Proof.Machine

/-! ## Instructions that change nothing but PC -/

theorem onlyPc_setPc (s : State) (w : Word) : onlyPc s (s.setPc w) := ⟨rfl, fun _ => rfl, fun _ => rfl⟩

theorem setPc_eq_self {s : State} {w : Word} (h : s.pc.toNat = w.toNat) : s.setPc w = s := by
  cases BitVec.eq_of_toNat_eq h
  rfl

/-- The two skips of a pair compare the same two bytes and go opposite ways (R83 to R86). -/
theorem skipIf_eq_and_ne (a b : Byte) (s : State) :
    (a = b → (s.skipIf (a == b)).pc = s.pc + 4 ∧ (s.skipIf (a != b)).pc = s.pc + 2) ∧
    (a ≠ b → (s.skipIf (a == b)).pc = s.pc + 2 ∧ (s.skipIf (a != b)).pc = s.pc + 4) ∧
    onlyPc s (s.skipIf (a == b)) ∧ onlyPc s (s.skipIf (a != b)) :=
  ⟨fun h => by simp [h], fun h => by simp [h], onlyPc_setPc s _, onlyPc_setPc s _⟩

/-- In groups 5 and 9 the minor opcode is `n = 0` (R66). -/
theorem decodeWord_formatXYN_of_minor_ne_zero {op n : BitVec 4} (x y : Reg) (hop : op = 5 ∨ op = 9) (hn : n ≠ 0) :
    decodeWord (formatXYN op x y n) = .error (.badOpcode (formatXYN op x y n)) := by
  refine decodeWord_of_illegal ((illegalWord_iff _).2 ?_)
  rw [fieldOp_formatXYN, fieldN_formatXYN]
  obtain h | h := hop
  · exact .inr (.inl ⟨h, hn⟩)
  · exact .inr (.inr (.inr (.inl ⟨h, hn⟩)))

/-! ## CALL and RET with room on the stack, or an address on it -/

theorem exec_call (nnn : Addr) {s : State} (h : s.sp.val < 16) :
    exec (.call nnn) s = .next (effect (.call nnn) s) :=
  exec_eq_effect (if_neg (by omega))

theorem effect_call_sp (nnn : Addr) {s : State} (h : s.sp.val < 16) :
    (effect (.call nnn) s).sp.val = s.sp.val + 1 := by
  rw [effect_call nnn h]
  rfl

/-- CALL writes the slot at SP and no other (R15, R82). -/
theorem effect_call_stk (nnn : Addr) {s : State} (h : s.sp.val < 16) (k : Fin 16) :
    (effect (.call nnn) s).stk[k] = if k.val = s.sp.val then s.pc + 2 else s.stk[k] := by
  rw [effect_call nnn h]
  exact (Vector.getElem_set h k.isLt).trans (if_congr eq_comm rfl rfl)

/-- RET takes the slot below SP and leaves every slot as it was (R15, R80). -/
theorem exec_ret {s : State} {k : Fin 16} (h : k.val + 1 = s.sp.val) :
    exec .ret s = .next ((s.setStack k.castSucc s.stk).setPc s.stk[k]) := by
  obtain ⟨h0, -⟩ | ⟨hpos, he⟩ := execRet_cases s
  · omega
  · have hk : s.sp.val - 1 = k.val := by omega
    simp only [hk] at he
    exact he

end Sys2Proof.Machine

/-! # The obligations of spec/40_control.md -/

namespace Sys2Proof.Machine

/-- Settles O29: RET takes the slot that CALL wrote, and CALL wrote no slot below it. -/
theorem callThenReturnComesBack : Obligations.CallThenReturnComesBack := by
  intro nnn s h
  refine ⟨_, _, exec_call nnn h, exec_ret (k := ⟨s.sp.val, h⟩) (effect_call_sp nnn h).symm, ?_, rfl, ?_, rfl⟩
  · exact (effect_call_stk nnn h _).trans (if_pos rfl)
  · intro k hk
    exact (effect_call_stk nnn h k).trans (if_neg (by omega))

/-- Settles O5: ten closed facts about the decoder. -/
theorem exampleWordsDecodeAsTheRulesPrintThem : Obligations.ExampleWordsDecodeAsTheRulesPrintThem := by
  unfold Obligations.ExampleWordsDecodeAsTheRulesPrintThem
  decide

/-- Settles O25: at 0xFFF the second byte of the fetch is outside memory. -/
theorem jumpReachesItsTarget : Obligations.JumpReachesItsTarget := by
  intro nnn s
  have hpc : (s.setPc (addrWord nnn)).pc.toNat = nnn.toNat := toNat_addrWord nnn
  refine ⟨decodeWord_encode (i := .jp nnn) rfl, _, rfl, hpc, onlyPc_setPc s _,
    fun h => setPc_eq_self (h.trans hpc.symm), ?_⟩
  rintro rfl hs
  exact ⟨_, step_of_fetchOutside hs (by rw [hpc]; decide), faultsWith_takeFault _ _ _⟩

/-- Settles O26. -/
theorem callPushesTheReturnAddress : Obligations.CallPushesTheReturnAddress := fun nnn _ =>
  ⟨decodeWord_encode (i := .call nnn) rfl, fun h =>
    ⟨_, exec_call nnn h, toNat_addrWord nnn, effect_call_sp nnn h, effect_call_stk nnn h, rfl, fun _ => rfl,
      fun _ => rfl⟩⟩

/-- Settles O27. -/
theorem returnPopsTheAddress : Obligations.ReturnPopsTheAddress :=
  ⟨decodeWord_encode (i := .ret) rfl, fun _ _ h => ⟨_, exec_ret h, rfl, rfl, rfl, fun _ => rfl, fun _ => rfl⟩⟩

/-- Settles O30. -/
theorem immediateSkipsCompareAndSkip : Obligations.ImmediateSkipsCompareAndSkip := fun x nn s =>
  ⟨decodeWord_encode (i := .seImm x nn) rfl, decodeWord_encode (i := .sneImm x nn) rfl, _, _, rfl, rfl,
    skipIf_eq_and_ne (s.getV x) nn s⟩

/-- Settles O31. -/
theorem registerSkipsCompareAndSkip : Obligations.RegisterSkipsCompareAndSkip := fun x y s =>
  ⟨decodeWord_encode (i := .seReg x y) rfl, decodeWord_encode (i := .sneReg x y) rfl,
    fun _ hn => ⟨decodeWord_formatXYN_of_minor_ne_zero x y (.inl rfl) hn,
      decodeWord_formatXYN_of_minor_ne_zero x y (.inr rfl) hn⟩,
    _, _, rfl, rfl, skipIf_eq_and_ne (s.getV x) (s.getV y) s⟩

/-- Settles O32: the sum fits 16 bits. -/
theorem indexedJumpAddsV0 : Obligations.IndexedJumpAddsV0 := fun nnn s =>
  ⟨decodeWord_encode (i := .jpV0 nnn) rfl, _, rfl, toNat_jumpTarget nnn (s.getV 0), onlyPc_setPc s _⟩

end Sys2Proof.Machine

/-! # Load and ALU (spec/41_load_alu.md) -/

namespace Sys2Proof.Machine

/-! ## Results and flags as unsigned integers (R100) -/

theorem toNat_subResult_nat (a b : Byte) : (subResult a b).toNat = (256 + a.toNat - b.toNat) % 256 := by
  have hr := toNat_subResult a b
  have hb := b.isLt
  omega

theorem addFlag_iff (a b : Byte) : addFlag a b = true ↔ a.toNat + b.toNat > 255 := decide_eq_true_iff

theorem subFlag_iff (a b : Byte) : subFlag a b = true ↔ a.toNat > b.toNat := decide_eq_true_iff

/-- A mask leaves no bit outside it and no value above it. -/
theorem and_bounded_by_mask (a m : Byte) : a &&& m &&& ~~~m = 0 ∧ (a &&& m).toNat ≤ m.toNat := by
  constructor
  · rw [BitVec.and_assoc, BitVec.and_not_self]
    exact BitVec.and_zero
  · rw [BitVec.toNat_and]
    exact Nat.and_le_right

/-! ## The two shapes of effect: a result alone, a flag and then a result -/

theorem sameRegsBut_setV (s : State) (x : Reg) (b : Byte) : sameRegsBut x s (s.setV x b) :=
  fun _ hr => getV_setV_other s hr b

theorem writesOneReg_setV_advance (s : State) (x : Reg) (b : Byte) : writesOneReg x b s (s.setV x b).advance :=
  ⟨getV_setV_same s x b, sameRegsBut_setV s x b, rfl, rfl, fun _ => rfl⟩

/-- The result is written last, so it stays when x = 15 (D6); the flag is seen when x is another register. -/
theorem writesFlagAndReg_setFlagThenResult_advance (s : State) (x : Reg) {flag : Bool} {p : Prop} {b : Byte} {n : Nat}
    (hflag : flag = true ↔ p) (hb : b.toNat = n) :
    writesFlagAndReg x p (BitVec.ofNat 8 n) s (s.setFlagThenResult x flag b).advance := by
  refine ⟨?_, fun hx => ⟨fun h => ?_, fun h => ?_⟩, fun r hrx hrF => ?_, rfl, rfl, fun _ => rfl⟩ <;>
    rw [getV_advance]
  · rw [getV_setFlagThenResult, if_pos rfl]
    exact (BitVec.toNat_eq_nat.1 hb).2
  · rw [getV_VF_setFlagThenResult s hx, flagByte_eq, if_pos (hflag.2 h)]
  · rw [getV_VF_setFlagThenResult s hx, flagByte_eq, if_neg (mt hflag.1 h)]
  · rw [getV_setFlagThenResult, if_neg hrx, if_neg hrF]

end Sys2Proof.Machine

/-! # The obligations of spec/41_load_alu.md -/

namespace Sys2Proof.Machine

/-- Settles O33. -/
theorem immediateLoadAndAddResults : Obligations.ImmediateLoadAndAddResults := by
  intro x nn s
  have hadd : addResult (s.getV x) nn = BitVec.ofNat 8 (((s.getV x).toNat + nn.toNat) % 256) :=
    (BitVec.toNat_eq_nat.1 (toNat_addResult _ _)).2
  exact ⟨decodeWord_encode (i := .ldImm x nn) rfl, decodeWord_encode (i := .addImm x nn) rfl,
    ⟨_, rfl, writesOneReg_setV_advance s x nn⟩, _, rfl, hadd ▸ writesOneReg_setV_advance s x _⟩

/-- Settles O34. -/
theorem copyAndLogicResults : Obligations.CopyAndLogicResults := fun x y s =>
  ⟨decodeWord_encode (i := .ldReg x y) rfl, decodeWord_encode (i := .orReg x y) rfl,
    decodeWord_encode (i := .andReg x y) rfl, decodeWord_encode (i := .xorReg x y) rfl,
    ⟨_, rfl, writesOneReg_setV_advance s x _⟩, ⟨_, rfl, writesOneReg_setV_advance s x _⟩,
    ⟨_, rfl, writesOneReg_setV_advance s x _⟩, _, rfl, writesOneReg_setV_advance s x _⟩

/-- Settles O35. -/
theorem addSetsCarry : Obligations.AddSetsCarry := fun x y s =>
  ⟨decodeWord_encode (i := .addReg x y) rfl, _, rfl,
    writesFlagAndReg_setFlagThenResult_advance s x (addFlag_iff _ _) (toNat_addResult _ _)⟩

/-- Settles O36: SUBN is SUB with the operands exchanged. -/
theorem subtractionsSetGreater : Obligations.SubtractionsSetGreater := fun x y s =>
  have sub (a b : Byte) := writesFlagAndReg_setFlagThenResult_advance s x (subFlag_iff a b) (toNat_subResult_nat a b)
  ⟨decodeWord_encode (i := .subReg x y) rfl, decodeWord_encode (i := .subnReg x y) rfl,
    ⟨_, rfl, sub (s.getV x) (s.getV y)⟩, _, rfl, sub (s.getV y) (s.getV x)⟩

/-- Settles O37. -/
theorem shiftsMoveOneBitIntoVF : Obligations.ShiftsMoveOneBitIntoVF := fun x y s =>
  ⟨decodeWord_encode (i := .shr x y) rfl, decodeWord_encode (i := .shl x y) rfl,
    ⟨_, rfl, writesFlagAndReg_setFlagThenResult_advance s x (shrFlag_iff _) (toNat_shrResult _)⟩,
    _, rfl, writesFlagAndReg_setFlagThenResult_advance s x (shlFlag_iff _) (toNat_shlResult _)⟩

/-- Settles O38: the bounds hold of any byte under the mask. -/
theorem randomByteIsMasked : Obligations.RandomByteIsMasked := by
  intro x nn s
  have hx : (s.setV x (s.randomByte &&& nn)).nextDraw.advance.getV x = s.randomByte &&& nn := getV_setV_same s x _
  obtain ⟨hout, hle⟩ := and_bounded_by_mask s.randomByte nn
  exact ⟨decodeWord_encode (i := .rnd x nn) rfl, _, rfl, hx, hx.symm ▸ hout, hx.symm ▸ hle,
    sameRegsBut_setV s x _, rfl, fun _ => rfl⟩

end Sys2Proof.Machine

/-! # Index register and memory (spec/42_index_memory.md) -/

namespace Sys2Proof.Machine

/-! ## Writing I -/

/-- `I <- w` and `PC <- npc` leave everything else as it was (R120 to R122). -/
theorem setIndex_advance_frame (s : State) (w : Word) :
    sameRegs s (s.setIndex w).advance ∧
    (s.setIndex w).advance = { s with index := (s.setIndex w).advance.index, pc := s.pc + 2 } ∧
    sameMemory s (s.setIndex w).advance :=
  ⟨fun _ => rfl, rfl, fun _ => rfl⟩

/-! ## Stores at I -/

theorem readByte_storeAtIndex_at {s : State} (hm : s.mem.wf = true) {bs : List Byte}
    (h : s.index.toNat + bs.length ≤ 4096) {j : Nat} (hj : j < bs.length) :
    (s.storeAtIndex bs).readByte (s.index.toNat + j) = bs.getD j 0 := by
  rw [readByte_storeAtIndex_block hm h, if_pos (by omega), Nat.add_sub_cancel_left]

theorem readByte_storeAtIndex_outside {s : State} (hm : s.mem.wf = true) {bs : List Byte}
    (h : s.index.toNat + bs.length ≤ 4096) {a : Nat} (ha : a < s.index.toNat ∨ s.index.toNat + bs.length ≤ a) :
    (s.storeAtIndex bs).readByte a = s.readByte a := by
  rw [readByte_storeAtIndex_block hm h, if_neg (by omega)]

/-! ## Fx33 -/

/-- What Fx33 answers when its block is in range (R123). -/
theorem exec_ldBVx {x : Reg} {s : State} (h : s.index.toNat ≤ 4093) :
    exec (.ldBVx x) s = .next (s.storeAtIndex (bcdDigits (s.getV x))).advance :=
  exec_eq_effect (if_neg (by omega))

/-- A digit of a byte fits a byte. -/
theorem toNat_bcdDigits (b : Byte) :
    ((bcdDigits b).getD 0 0).toNat = b.toNat / 100 ∧ ((bcdDigits b).getD 1 0).toNat = b.toNat / 10 % 10 ∧
    ((bcdDigits b).getD 2 0).toNat = b.toNat % 10 := by
  have hb := b.isLt
  refine ⟨Nat.mod_eq_of_lt ?_, Nat.mod_eq_of_lt ?_, Nat.mod_eq_of_lt ?_⟩ <;> omega

/-! ## Fx65 -/

/-- `V <- w` and `PC <- npc` leave everything else as it was. Stated for any `w`, so that `rfl` never unfolds the register
file that Fx65 loads. -/
theorem setRegs_advance_frame (s : State) (w : Vector Byte 16) :
    advanced s (s.setRegs w).advance ∧ onlyRegsAndPc s (s.setRegs w).advance :=
  ⟨rfl, rfl, fun _ => rfl⟩

/-- What Fx65 answers when its block is in range, and its whole effect (R125). -/
theorem exec_ldVxMem {x : Reg} {s : State} (h : s.index.toNat + x.val ≤ 4095) :
    ∃ t, exec (.ldVxMem x) s = .next t ∧ (∀ r : Reg, r ≤ x → t.getV r = s.readByte (s.index.toNat + r.val)) ∧
      (∀ r : Reg, x < r → t.getV r = s.getV r) ∧ advanced s t ∧ onlyRegsAndPc s t := by
  refine ⟨(s.loadRegsUpTo x).advance, exec_eq_effect (if_neg (Nat.not_lt.2 h)), fun r hr => ?_, fun r hr => ?_,
    setRegs_advance_frame s _⟩ <;> rw [getV_advance]
  · exact (getV_loadRegsUpTo s x r).trans (if_pos hr)
  · exact (getV_loadRegsUpTo s x r).trans (if_neg (Nat.not_le.2 hr))

end Sys2Proof.Machine

/-! # The obligations of spec/42_index_memory.md -/

namespace Sys2Proof.Machine

/-- Settles O46: the load reads at I + r the byte that the store left there, which is V[r]. -/
theorem storeThenLoadRestoresRegisters : Obligations.StoreThenLoadRestoresRegisters := by
  intro x s t u hm hI hst hmem hidx
  obtain rfl : (s.storeAtIndex (s.regsUpTo x)).advance = t := by
    rw [exec_ldMemVx hI] at hst
    cases hst
    rfl
  obtain ⟨w, hw, hle, hgt, -⟩ := exec_ldVxMem (s := u) (hidx ▸ hI)
  refine ⟨w, hw, fun r hr => ?_, hgt⟩
  calc w.getV r
      = u.readByte (s.index.toNat + r.val) := hidx ▸ hle r hr
    _ = (s.storeAtIndex (s.regsUpTo x)).readByte (s.index.toNat + r.val) := sameMemory_of_mem_eq hmem _
    _ = s.getV r := readByte_storeAtIndex_regsUpTo hm hI hr

/-- Settles O39. -/
theorem indexLoadResult : Obligations.IndexLoadResult := fun nnn s =>
  ⟨decodeWord_encode (i := .ldI nnn) rfl, _, rfl, toNat_addrWord nnn, setIndex_advance_frame s _⟩

/-- Settles O40. -/
theorem indexAddResult : Obligations.IndexAddResult := fun x s =>
  ⟨decodeWord_encode (i := .addIVx x) rfl, _, rfl, toNat_indexSum s.index (s.getV x), setIndex_advance_frame s _⟩

/-- Settles O41: 5 times a byte fits 16 bits. -/
theorem glyphAddressResult : Obligations.GlyphAddressResult := fun x s =>
  ⟨decodeWord_encode (i := .ldFVx x) rfl, _, rfl, (toNat_glyphAddress (s.getV x)).trans (Nat.mul_comm _ _),
    setIndex_advance_frame s _⟩

/-- Settles O42: the digits are read back from the stored block. -/
theorem bcdStoresThreeDigits : Obligations.BcdStoresThreeDigits := by
  refine fun x s => ⟨decodeWord_encode (i := .ldBVx x) rfl, fun hm hI => ?_⟩
  have hblock : s.index.toNat + (bcdDigits (s.getV x)).length ≤ 4096 := by
    rw [length_bcdDigits]
    omega
  have hdigit {j : Nat} (hj : j < 3) := readByte_storeAtIndex_at hm hblock hj
  obtain ⟨hhundreds, htens, hones⟩ := toNat_bcdDigits (s.getV x)
  refine ⟨_, exec_ldBVx hI, ?_, ?_, ?_, fun a ha => readByte_storeAtIndex_outside hm hblock ha, fun _ => rfl, rfl⟩
  · exact (congrArg BitVec.toNat (hdigit (j := 0) (by decide))).trans hhundreds
  · exact (congrArg BitVec.toNat (hdigit (j := 1) (by decide))).trans htens
  · exact (congrArg BitVec.toNat (hdigit (j := 2) (by decide))).trans hones

/-- Settles O43: the block holds x + 1 bytes, V0 to Vx. -/
theorem registerStoreWritesV0ToVx : Obligations.RegisterStoreWritesV0ToVx := by
  refine fun x s => ⟨decodeWord_encode (i := .ldMemVx x) rfl, fun hm hI => ?_⟩
  refine ⟨_, exec_ldMemVx hI, fun r hr => readByte_storeAtIndex_regsUpTo hm hI hr, fun a ha => ?_, fun _ => rfl, rfl⟩
  apply readByte_storeAtIndex_outside hm <;> rw [length_regsUpTo] <;> omega

/-- Settles O44. -/
theorem registerLoadReadsV0ToVx : Obligations.RegisterLoadReadsV0ToVx := fun x _ =>
  ⟨decodeWord_encode (i := .ldVxMem x) rfl, exec_ldVxMem⟩

end Sys2Proof.Machine

/-! # The display (spec/43_display.md) -/

namespace Sys2Proof.Machine

open Sys2Proof.Config (Framebuffer displayW displayH)

/-! ## The pixels of a sprite -/

/-- The calls of one DRW, as `State.drawn` makes them (R132). -/
def State.sprite (s : State) (x y : Reg) (n : Nat) : List (Nat × Nat) :=
  spriteCalls (s.getV x) (s.getV y) (s.bytesAtIndex n)

theorem drawn_eq (s : State) (x y : Reg) (n : Nat) : s.drawn x y n = drawCalls s.fb (s.sprite x y n) := rfl

theorem mem_sprite {s : State} {x y : Reg} {n cx cy : Nat} : (cx, cy) ∈ s.sprite x y n ↔ covered s x y n cx cy := by
  simp only [State.sprite, spriteCalls, mem_spriteCallsFrom, length_bytesAtIndex, getElem_bytesAtIndex, exists_prop,
    Nat.zero_add, Prod.mk.injEq, covered]

theorem onDisplay_sprite (s : State) (x y : Reg) (n : Nat) : onDisplay (s.sprite x y n) :=
  onDisplay_spriteCallsFrom _ _ _ _

theorem nodup_sprite (s : State) (x y : Reg) {n : Nat} (hn : n ≤ 15) : (s.sprite x y n).Nodup :=
  nodup_spriteCallsFrom _ _ _ _ (by rw [length_bytesAtIndex]; exact hn.trans (by decide))

theorem lt_of_covered {s : State} {x y : Reg} {n cx cy : Nat} (h : covered s x y n cx cy) :
    cx < displayW ∧ cy < displayH :=
  onDisplay_sprite s x y n _ (mem_sprite.2 h)

/-- Which pixels a sprite covers depends on its coordinates, I and memory alone. -/
theorem covered_congr {s s' : State} {x y : Reg} (hx : s'.getV x = s.getV x) (hy : s'.getV y = s.getV y)
    (hI : s'.index = s.index) (hm : sameMemory s s') (n cx cy : Nat) :
    covered s' x y n cx cy ↔ covered s x y n cx cy := by
  simp only [covered, hx, hy, hI, hm _]

/-! ## What the calls leave -/

theorem pixelAt_drawn {s : State} {x y : Reg} {n cx cy : Nat} (hn : n ≤ 15) (hx : cx < displayW) (hy : cy < displayH) :
    pixelAt (s.drawn x y n).1 cx cy = (pixelAt s.fb cx cy ^^ decide ((cx, cy) ∈ s.sprite x y n)) := by
  rw [drawn_eq, pixelAt_drawCalls (nodup_sprite s x y hn) (onDisplay_sprite s x y n) s.fb hx hy]

theorem pixelAt_drawn_of_covered {s : State} {x y : Reg} {n cx cy : Nat} (hn : n ≤ 15)
    (h : covered s x y n cx cy) : pixelAt (s.drawn x y n).1 cx cy = !pixelAt s.fb cx cy := by
  obtain ⟨hx, hy⟩ := lt_of_covered h
  rw [pixelAt_drawn hn hx hy, decide_eq_true (mem_sprite.2 h), Bool.xor_true]

theorem pixelAt_drawn_of_not_covered {s : State} {x y : Reg} {n cx cy : Nat} (hn : n ≤ 15) (hx : cx < displayW)
    (hy : cy < displayH) (h : ¬ covered s x y n cx cy) :
    pixelAt (s.drawn x y n).1 cx cy = pixelAt s.fb cx cy := by
  rw [pixelAt_drawn hn hx hy, decide_eq_false (mt mem_sprite.1 h), Bool.xor_false]

theorem drawn_collision {s : State} {x y : Reg} {n : Nat} (hn : n ≤ 15) :
    (s.drawn x y n).2 = true ↔ ∃ cx cy, covered s x y n cx cy ∧ pixelAt s.fb cx cy = true := by
  rw [drawn_eq, drawCalls_collision (nodup_sprite s x y hn) (onDisplay_sprite s x y n)]
  simp only [Prod.exists, mem_sprite]

/-! ## DRW -/

/-- What DRW answers when its rows are in memory, or when it has none (R132, D23). -/
theorem exec_drw {x y : Reg} {n : Nat} {s : State} (h : n = 0 ∨ s.index.toNat + n ≤ 4096) :
    exec (.drw x y n) s = .next (effect (.drw x y n) s) :=
  withBlock_inRange h _

theorem effect_drw_fb (x y : Reg) (n : Nat) (s : State) : (effect (.drw x y n) s).fb = (s.drawn x y n).1 := rfl

theorem effect_drw_getV_VF (x y : Reg) (n : Nat) (s : State) :
    (effect (.drw x y n) s).getV VF = flagByte (s.drawn x y n).2 :=
  getV_setV_same (s.setFb (s.drawn x y n).1) VF _

theorem effect_drw_VF_of_collision {x y : Reg} {n : Nat} {s : State} (hn : n ≤ 15)
    (h : ∃ cx cy, covered s x y n cx cy ∧ pixelAt s.fb cx cy = true) : (effect (.drw x y n) s).getV VF = 1 := by
  rw [effect_drw_getV_VF, (drawn_collision hn).2 h]
  rfl

theorem effect_drw_VF_of_no_collision {x y : Reg} {n : Nat} {s : State} (hn : n ≤ 15)
    (h : ∀ cx cy, covered s x y n cx cy → pixelAt s.fb cx cy = false) : (effect (.drw x y n) s).getV VF = 0 := by
  have hnone : ¬ (s.drawn x y n).2 = true := by
    intro hd
    obtain ⟨cx, cy, hcov, hset⟩ := (drawn_collision hn).1 hd
    exact Bool.false_ne_true ((h cx cy hcov).symm.trans hset)
  rw [effect_drw_getV_VF, Bool.eq_false_of_not_eq_true hnone]
  rfl

/-- A new grid, `V[r] <- b` and `PC <- npc` leave everything else as it was. Stated for any grid and byte, so that `rfl`
never unfolds the calls of a sprite. -/
theorem setFb_setV_advance_frame (s : State) (fb : Framebuffer) (r : Reg) (b : Byte) :
    sameRegsBut r s ((s.setFb fb).setV r b).advance ∧
    ((s.setFb fb).setV r b).advance =
      { s with v := ((s.setFb fb).setV r b).advance.v, fb := fb, pc := s.pc + 2 } ∧
    sameMemory s ((s.setFb fb).setV r b).advance :=
  ⟨sameRegsBut_setV (s.setFb fb) r b, rfl, fun _ => rfl⟩

end Sys2Proof.Machine

/-! # The obligations of spec/43_display.md -/

namespace Sys2Proof.Machine

/-- Settles O49: the calls of a sprite are distinct, so each covered pixel is toggled once. -/
theorem drawTogglesExactlyTheCoveredPixels : Obligations.DrawTogglesExactlyTheCoveredPixels := by
  intro x y n s hn h
  exact ⟨decodeWord_encode (i := .drw x y n) (decide_eq_true (Nat.lt_succ_of_le hn)), _, exec_drw h,
    fun _ _ hx hy => ⟨pixelAt_drawn_of_covered hn, pixelAt_drawn_of_not_covered hn hx hy⟩,
    effect_drw_VF_of_collision hn, effect_drw_VF_of_no_collision hn, setFb_setV_advance_frame s _ VF _⟩

/-- Settles O50: both draws toggle the same pixels, and a pixel toggled twice is as it was. -/
theorem drawingTwiceRestoresTheDisplay : Obligations.DrawingTwiceRestoresTheDisplay := by
  intro x y n s t s' hn h ht hfb hx hy hI hm
  obtain rfl : effect (.drw x y n) s = t := by
    rw [exec_drw h] at ht
    cases ht
    rfl
  have hcov := covered_congr hx hy hI hm n
  refine ⟨_, exec_drw (hI ▸ h), framebuffer_ext fun cx cy hcx hcy => ?_, fun ⟨cx, cy, hc⟩ hunset => ⟨?_, ?_⟩⟩
  · rw [effect_drw_fb]
    by_cases hc : covered s x y n cx cy
    · rw [pixelAt_drawn_of_covered hn ((hcov cx cy).2 hc), hfb, effect_drw_fb, pixelAt_drawn_of_covered hn hc,
        Bool.not_not]
    · rw [pixelAt_drawn_of_not_covered hn hcx hcy (mt (hcov cx cy).1 hc), hfb, effect_drw_fb,
        pixelAt_drawn_of_not_covered hn hcx hcy hc]
  · exact effect_drw_VF_of_no_collision hn hunset
  · refine effect_drw_VF_of_collision hn ⟨cx, cy, (hcov cx cy).2 hc, ?_⟩
    rw [hfb, effect_drw_fb, pixelAt_drawn_of_covered hn hc, hunset cx cy hc, Bool.not_false]

/-- Settles O48. -/
theorem clearScreenClearsEveryPixel : Obligations.ClearScreenClearsEveryPixel :=
  ⟨decodeWord_encode (i := .cls) rfl, fun _ =>
    ⟨_, rfl, fun cx cy _ _ => pixelAt_clearDisplay cx cy, fun _ => rfl, rfl, fun _ => rfl⟩⟩

end Sys2Proof.Machine

/-! # Sequences of events (R172) -/

namespace Sys2Proof.Machine

theorem runEvents_cons_of_next {e : Event} {s t : State} (h : handle e s = .next t) (es : List Event) :
    runEvents (e :: es) s = runEvents es t := by
  rw [runEvents, h]

/-- A property that every event of the list keeps is kept by the list. -/
theorem runEvents_induction_of_mem {P : State → Prop} {es : List Event}
    (hP : ∀ e ∈ es, ∀ s t, P s → handle e s = .next t → P t) {s t : State} (hs : P s)
    (h : runEvents es s = .next t) : P t := by
  induction es generalizing s with
  | nil => cases h; exact hs
  | cons e es ih =>
    obtain ⟨u, he, hu⟩ := runEvents_cons_next h
    obtain ⟨hPe, hPes⟩ := List.forall_mem_cons.1 hP
    exact ih hPes (hPe s u hs he) hu

/-- Steps outside Running leave no trace (R168, R179). -/
theorem runEvents_steps_append {s : State} (hs : s.status ≠ .running) (m : Nat) (es : List Event) :
    runEvents (List.replicate m .step ++ es) s = runEvents es s := by
  have hstep : handle .step s = .next s := step_of_not_running hs
  induction m with
  | zero => rfl
  | succ m ih => rw [List.replicate_succ, List.cons_append, runEvents_cons_of_next hstep, ih]

end Sys2Proof.Machine

/-! # Keyboard (spec/44_keyboard.md) -/

namespace Sys2Proof.Machine

/-! ## The wait: steps and ticks in it, and its end -/

theorem ne_running_of_waiting {s : State} {r : Reg} (h : s.status = .waitingForKey r) : s.status ≠ .running := by
  simp [h]

/-- Nothing but the two timers differs. -/
def onlyTimers (s t : State) : Prop := t = { s with dt := t.dt, st := t.st }

theorem onlyTimers_refl (s : State) : onlyTimers s s := rfl

theorem onlyTimers.status_eq {s t : State} (h : onlyTimers s t) : t.status = s.status := by
  rw [onlyTimers] at h
  rw [h]

theorem onlyTimers.tickTimers {s t : State} (h : onlyTimers s t) : onlyTimers s (tickTimers t) :=
  congrArg Machine.tickTimers h

/-- A step is the identity outside Running (R179), and a tick moves the timers alone (R155). -/
theorem onlyTimers_of_step_or_tick {s u w : State} {e : Event} (hs : s.status ≠ .running)
    (he : e = .step ∨ e = .tickTimers) (hu : onlyTimers s u) (hw : handle e u = .next w) : onlyTimers s w := by
  obtain rfl | rfl := he
  · have hstep : handle .step u = .next u := step_of_not_running (hu.status_eq ▸ hs)
    cases hstep.symm.trans hw
    exact hu
  · cases hw
    exact hu.tickTimers

/-- The whole effect of a key press that ends a wait (R143); a key number fits a byte. -/
theorem keyPress_ends_wait (k : Key) {s : State} {r : Reg} (h : s.status = .waitingForKey r) :
    ((keyPress k s).getV r).toNat = k.val ∧ sameRegsBut r s (keyPress k s) ∧
      keyPress k s = { s with v := (keyPress k s).v, status := .running } := by
  rw [keyPress_of_waiting h]
  refine ⟨?_, sameRegsBut_setV s r _, rfl⟩
  rw [getV_setStatus, getV_setV_same]
  exact Nat.mod_eq_of_lt (by omega)

end Sys2Proof.Machine

/-! # The obligations of spec/44_keyboard.md -/

namespace Sys2Proof.Machine

/-- Settles O15: "only the timers differ" is kept by each event of the list. -/
theorem theWaitSurvivesStepsAndTicks : Obligations.TheWaitSurvivesStepsAndTicks := by
  intro es s t r hs hes h
  have hwait := ne_running_of_waiting hs
  exact runEvents_induction_of_mem (fun e he _ _ => onlyTimers_of_step_or_tick hwait (hes e he)) (onlyTimers_refl s) h

/-- Settles O52: the steps leave the state that Fx0A answered, and the key press ends its wait. -/
theorem keyWaitEndsWithTheKeyInVx : Obligations.KeyWaitEndsWithTheKeyInVx := by
  intro x k m s
  obtain ⟨hkey, hregs, hframe⟩ := keyPress_ends_wait k (s := (s.setStatus (.waitingForKey x)).advance) rfl
  exact ⟨decodeWord_encode (i := .ldVxK x) rfl, _, _, rfl, rfl, fun _ => rfl, fun _ => rfl, rfl,
    runEvents_steps_append (ne_running_of_waiting (r := x) rfl) m _, hkey, hregs, hframe⟩

/-- Settles O51: both program counters are those of R14. -/
theorem keySkipsFollowTheAnswer : Obligations.KeySkipsFollowTheAnswer := fun x _ =>
  ⟨decodeWord_encode (i := .skp x) rfl, decodeWord_encode (i := .sknp x) rfl, _, _, rfl, rfl,
    pcAfter_effect (i := .skp x) rfl, pcAfter_effect (i := .sknp x) rfl, rfl, rfl, fun _ => rfl, fun _ => rfl,
    fun _ => rfl, fun _ => rfl⟩

/-- Settles O53. -/
theorem keyPressActsOnlyOnAWait : Obligations.KeyPressActsOnlyOnAWait := fun k _ =>
  ⟨fun _ => keyPress_ends_wait k, keyPress_of_not_waiting⟩

end Sys2Proof.Machine

/-! # Timers (spec/45_timers.md) -/

namespace Sys2Proof.Machine

/-- The floor of R153 is that of subtraction on `Nat`: 0 stays 0. -/
@[simp] theorem toNat_countDown (b : Byte) : (countDown b).toNat = b.toNat - 1 := by
  rw [countDown]
  split
  · bv_omega
  · omega

@[simp] theorem tickTimers_dt (s : State) : (tickTimers s).dt = countDown s.dt := rfl

@[simp] theorem tickTimers_st (s : State) : (tickTimers s).st = countDown s.st := rfl

theorem soundOn_iff (s : State) : s.soundOn = true ↔ 0 < s.st.toNat := decide_eq_true_iff

/-! ## A run of ticks (R154, R155) -/

theorem toNat_dt_iterate_tickTimers (n : Nat) (s : State) : (tickTimers^[n] s).dt.toNat = s.dt.toNat - n := by
  induction n with
  | zero => rfl
  | succ n ih => rw [Function.iterate_succ_apply', tickTimers_dt, toNat_countDown, ih, Nat.sub_add_eq]

theorem toNat_st_iterate_tickTimers (n : Nat) (s : State) : (tickTimers^[n] s).st.toNat = s.st.toNat - n := by
  induction n with
  | zero => rfl
  | succ n ih => rw [Function.iterate_succ_apply', tickTimers_st, toNat_countDown, ih, Nat.sub_add_eq]

theorem onlyTimers_iterate_tickTimers (n : Nat) (s : State) : onlyTimers s (tickTimers^[n] s) := by
  induction n with
  | zero => exact onlyTimers_refl s
  | succ n ih => rw [Function.iterate_succ_apply']; exact ih.tickTimers

/-- A tick is never refused, whatever STATUS is (R155). -/
theorem runEvents_replicate_tickTimers (n : Nat) (s : State) :
    runEvents (List.replicate n .tickTimers) s = .next (tickTimers^[n] s) := by
  induction n generalizing s with
  | zero => rfl
  | succ n ih => rw [List.replicate_succ, runEvents_cons_of_next rfl, ih, Function.iterate_succ_apply]

end Sys2Proof.Machine

/-! # The obligations of spec/45_timers.md -/

namespace Sys2Proof.Machine

/-- Settles O56: the run of ticks is the tick iterated, and each of the three facts is an induction on their number. -/
theorem ticksCountDownToZero : Obligations.TicksCountDownToZero := fun n s =>
  ⟨_, runEvents_replicate_tickTimers n s, toNat_dt_iterate_tickTimers n s, toNat_st_iterate_tickTimers n s,
    onlyTimers_iterate_tickTimers n s⟩

/-- Settles O54. -/
theorem timerMovesResults : Obligations.TimerMovesResults := fun x s =>
  ⟨decodeWord_encode (i := .ldVxDT x) rfl, decodeWord_encode (i := .ldDTVx x) rfl,
    decodeWord_encode (i := .ldSTVx x) rfl, ⟨_, rfl, writesOneReg_setV_advance s x s.dt⟩,
    ⟨_, rfl, rfl, fun _ => rfl, fun _ => rfl⟩, _, rfl, rfl, fun _ => rfl, fun _ => rfl, soundOn_iff _⟩

/-- Settles O55. -/
theorem tickDecrementsBothTimers : Obligations.TickDecrementsBothTimers := fun s =>
  ⟨toNat_countDown s.dt, toNat_countDown s.st, (onlyTimers_refl s).tickTimers, fun _ => rfl, fun _ => rfl⟩

end Sys2Proof.Machine

/-! # Faults and STATUS (spec/60_exceptions.md) -/

namespace Sys2Proof.Machine

/-! ## STATUS after an instruction that does not fault (R18, R144) -/

/-- Of the effects only that of Fx0A writes STATUS. -/
theorem effect_status (i : Instr) (s : State) : (effect i s).status = statusUnlessFaulted i s := by
  cases i <;> rfl

/-! ## What the events without reset do in Faulted (R168, R169) -/

/-- Nothing but PC, the timers and memory differs: what `loadProgram` and `tickTimers` write in every STATUS. -/
def onlyPcTimersMemory (s t : State) : Prop := t = { s with pc := t.pc, dt := t.dt, st := t.st, mem := t.mem }

theorem onlyPcTimersMemory_refl (s : State) : onlyPcTimersMemory s s := rfl

theorem onlyPcTimersMemory.kept {s t : State} (h : onlyPcTimersMemory s t) :
    t.status = s.status ∧ t.v = s.v ∧ t.index = s.index ∧ t.sp = s.sp ∧ t.stk = s.stk ∧ t.fb = s.fb := by
  rw [onlyPcTimersMemory] at h
  rw [h]
  exact ⟨rfl, rfl, rfl, rfl, rfl, rfl⟩

theorem onlyPcTimersMemory.tickTimers {s t : State} (h : onlyPcTimersMemory s t) :
    onlyPcTimersMemory s (tickTimers t) :=
  congrArg Machine.tickTimers h

theorem onlyPcTimersMemory.loadProgram {s t : State} (h : onlyPcTimersMemory s t) (bytes : List Byte) :
    onlyPcTimersMemory s (loadProgram bytes t) := by
  by_cases hlen : bytes.length ≤ 3584
  · rw [loadProgram_of_fits hlen]
    exact congrArg (fun u => (u.setMem (writeCells t.mem Config.progBase bytes)).setPc 0x200) h
  · rwa [loadProgram_of_tooLarge (by omega)]

/-- In Faulted a step and a key press change nothing (R168), and the other two events keep their frame. -/
theorem onlyPcTimersMemory_of_faulted {s u w : State} {c : FaultCause} {n : BitVec 17} {e : Event}
    (hs : s.status = .faulted c n) (he : e ≠ .reset) (hu : onlyPcTimersMemory s u) (hw : handle e u = .next w) :
    onlyPcTimersMemory s w := by
  obtain ⟨hstatus, -⟩ := hu.kept
  have hfaulted : u.status = .faulted c n := hstatus.trans hs
  cases e with
  | reset => exact absurd rfl he
  | loadProgram bytes => cases hw; exact hu.loadProgram bytes
  | step =>
    have hstep : step u = .next u := step_of_not_running (by simp [hfaulted])
    cases hstep.symm.trans hw
    exact hu
  | tickTimers => cases hw; exact hu.tickTimers
  | keyPress k =>
    have hkey : keyPress k u = u := keyPress_of_not_waiting (by simp [hfaulted])
    cases hw
    rwa [hkey]

end Sys2Proof.Machine

/-! # The obligations of spec/60_exceptions.md -/

namespace Sys2Proof.Machine

/-- Settles O13: an instruction takes the fault that its row of R180 names, or has its effect, whose STATUS is that of
R18. -/
theorem statusAfterEveryInstruction : Obligations.StatusAfterEveryInstruction := by
  intro i s t h
  constructor
  · intro c n hf
    cases (exec_eq_takeFault hf).symm.trans h
    exact faultsWith_takeFault c n s
  · intro hf
    cases (exec_eq_effect hf).symm.trans h
    exact effect_status i s

/-- Settles O14: "only PC, the timers and memory differ" is kept by each event of the list. -/
theorem faultedIsLeftOnlyByReset : Obligations.FaultedIsLeftOnlyByReset := by
  intro es s t c n hs hes h
  have hframe : onlyPcTimersMemory s t :=
    runEvents_induction_of_mem (fun e he _ _ => onlyPcTimersMemory_of_faulted hs (hes e he))
      (onlyPcTimersMemory_refl s) h
  obtain ⟨hstatus, hrest⟩ := hframe.kept
  exact ⟨hstatus.trans hs, hrest⟩

/-- Settles O28: both are rows of R180. -/
theorem stackFaultsRecordThePc : Obligations.StackFaultsRecordThePc := fun _ _ =>
  ⟨fun hfull => exec_faultsWith (if_pos hfull), fun hempty => exec_faultsWith (if_pos hempty)⟩

end Sys2Proof.Machine

/-! # Reset, program load and every event (spec/70_reset_and_hazards.md) -/

namespace Sys2Proof.Machine

/-! ## Every event answers a state (R172, R195) -/

/-- A fault of the spec is a next state too (R165). -/
theorem exec_answers (i : Instr) (s : State) : ∃ t, exec i s = .next t := by
  obtain ⟨c, n, -, he⟩ | ⟨-, he⟩ := exec_cases i s
  · exact ⟨_, he⟩
  · exact ⟨_, he⟩

theorem step_answers (s : State) : ∃ t, step s = .next t := by
  obtain ⟨-, he⟩ | ⟨-, -, he⟩ | ⟨-, -, -, he⟩ | ⟨-, -, i, -, he⟩ := step_cases s
  · exact ⟨_, he⟩
  · exact ⟨_, he⟩
  · exact ⟨_, he⟩
  · rw [he]
    exact exec_answers i s

theorem handle_answers (e : Event) (s : State) : ∃ t, handle e s = .next t := by
  cases e with
  | step => exact step_answers s
  | reset | loadProgram | tickTimers | keyPress => exact ⟨_, rfl⟩

theorem runEvents_answers (es : List Event) (s : State) : ∃ t, runEvents es s = .next t := by
  induction es generalizing s with
  | nil => exact ⟨s, rfl⟩
  | cons e es ih =>
    obtain ⟨t, he⟩ := handle_answers e s
    rw [runEvents_cons_of_next he]
    exact ih t

/-! ## The state after reset (R25, R190) -/

theorem initialByte_of_lt {a : Nat} (h : a < 80) : initialByte a = font.getD a 0 := if_pos h

theorem initialByte_of_le {a : Nat} (h : 80 ≤ a) : initialByte a = 0 := if_neg (Nat.not_lt.2 h)

@[simp] theorem getV_hostReset (s : State) (r : Reg) : (hostReset s).getV r = 0 := Vector.getElem_replicate r.isLt

theorem hostReset_stk (s : State) (k : Fin 16) : (hostReset s).stk[k] = 0 := Vector.getElem_replicate k.isLt

@[simp] theorem readByte_hostReset (s : State) (a : Nat) : (hostReset s).readByte a = initialByte a := rfl

/-! ## A loaded program (R193) -/

/-- A program that fits lies at 0x200 in the order of its bytes, and every other byte is as before. -/
theorem readByte_loadProgram {bytes : List Byte} {s : State} (hm : s.mem.wf = true) (h : bytes.length ≤ 3584)
    (a : Nat) : (loadProgram bytes s).readByte a =
      if 0x200 ≤ a ∧ a < 0x200 + bytes.length then bytes.getD (a - 0x200) 0 else s.readByte a := by
  rw [loadProgram_of_fits h]
  exact readCell_writeCells hm (by simp only [Config.progBase, Config.memSize]; omega) a

theorem readByte_loadProgram_inside {bytes : List Byte} {s : State} (hm : s.mem.wf = true)
    (h : bytes.length ≤ 3584) {k : Nat} (hk : k < bytes.length) :
    (loadProgram bytes s).readByte (0x200 + k) = bytes[k] := by
  rw [readByte_loadProgram hm h, if_pos (by omega), Nat.add_sub_cancel_left, List.getD_eq_getElem bytes 0 hk]

theorem readByte_loadProgram_outside {bytes : List Byte} {s : State} (hm : s.mem.wf = true)
    (h : bytes.length ≤ 3584) {a : Nat} (ha : a < 0x200 ∨ 0x200 + bytes.length ≤ a) :
    (loadProgram bytes s).readByte a = s.readByte a := by
  rw [readByte_loadProgram hm h, if_neg (by omega)]

theorem loadProgram_frame {bytes : List Byte} (s : State) (h : bytes.length ≤ 3584) :
    loadProgram bytes s = { s with mem := (loadProgram bytes s).mem, pc := 0x200 } := by
  rw [loadProgram_of_fits h]
  rfl

@[simp] theorem loadProgram_status (bytes : List Byte) (s : State) : (loadProgram bytes s).status = s.status := by
  by_cases h : bytes.length ≤ 3584
  · rw [loadProgram_frame s h]
  · rw [loadProgram_of_tooLarge (by omega)]

theorem loadProgram_pc {bytes : List Byte} (s : State) (h : bytes.length ≤ 3584) :
    (loadProgram bytes s).pc = 0x200 := by
  rw [loadProgram_frame s h]

/-- The word at PC is the program's first two bytes, high byte first (R44, R193). -/
theorem wordAtPc_loadProgram {hi lo : Byte} {rest : List Byte} {s : State} (hm : s.mem.wf = true)
    (h : (hi :: lo :: rest).length ≤ 3584) : (loadProgram (hi :: lo :: rest) s).wordAtPc = hi ++ lo := by
  have hhi := readByte_loadProgram_inside hm h (k := 0) (by simp)
  have hlo := readByte_loadProgram_inside hm h (k := 1) (by simp)
  rw [State.wordAtPc, loadProgram_pc s h]
  exact congrArg₂ wordOfBytes hhi hlo

end Sys2Proof.Machine

/-! # The obligations of spec/70_reset_and_hazards.md -/

namespace Sys2Proof.Machine

/-- Settles O11, by induction on the events: each of the five answers a state. -/
theorem everySequenceOfEventsAnswersAState : Obligations.EverySequenceOfEventsAnswersAState :=
  ⟨step_answers, runEvents_answers⟩

/-- Settles O59: reset leaves a canonical memory and STATUS Running, and the load puts the program's first word at PC. -/
theorem bootRunsTheProgramsFirstInstruction : Obligations.BootRunsTheProgramsFirstInstruction := by
  intro hi lo rest i s hrest hd
  have hlen : (hi :: lo :: rest).length ≤ 3584 := by simp only [List.length_cons]; omega
  have hrun : (loadProgram (hi :: lo :: rest) (hostReset s)).status = .running := loadProgram_status _ _
  have hpc := loadProgram_pc (hostReset s) hlen
  refine ⟨_, rfl, hrun, hpc, step_of_decodeWord hrun (by rw [hpc]; decide) ?_⟩
  rwa [wordAtPc_loadProgram (inv_hostReset s).memory hlen]

/-- Settles O57: memory lists nothing, so every byte reads as its reset contents. -/
theorem resetEventLeavesTheResetState : Obligations.ResetEventLeavesTheResetState := fun s =>
  ⟨_, rfl, getV_hostReset s, rfl, rfl, rfl, hostReset_stk s, rfl, rfl, rfl, rfl, rfl,
    fun _ ha => initialByte_of_lt ha, fun _ ha => initialByte_of_le ha, rfl, rfl⟩

/-- Settles O58: the two clauses are the two reports of `loadProgram`. -/
theorem loadProgramPlacesTheBytes : Obligations.LoadProgramPlacesTheBytes := by
  intro bytes s hm
  constructor
  · intro h
    exact ⟨if_pos h, fun _ hk => readByte_loadProgram_inside hm h hk,
      fun _ ha => readByte_loadProgram_outside hm h ha, loadProgram_frame s h⟩
  · intro h
    exact ⟨if_neg (Nat.not_le.2 h), loadProgram_of_tooLarge h⟩

end Sys2Proof.Machine

/-! # Faulting steps are precise (R165) -/

namespace Sys2Proof.Machine

theorem eq_setStatus_of_takeFault {s : State} {c c' : FaultCause} {k : Nat} {n : BitVec 17}
    (h : (takeFault c' k s).status = .faulted c n) : takeFault c' k s = { s with status := .faulted c n } := by
  rw [← h]
  rfl

/-- From Running the fault-free effects leave Running or WaitingForKey (R18). -/
theorem effect_status_ne_faulted (i : Instr) {s : State} (hs : s.status = .running) (c : FaultCause)
    (n : BitVec 17) : (effect i s).status ≠ .faulted c n := by
  rw [effect_status]
  cases i
  case ldVxK x => exact nofun
  all_goals exact ne_of_eq_of_ne hs nofun

/-- Settles O12: of everything a step can do, only the three kinds of fault leave Faulted, and each is `takeFault`. -/
theorem faultsArePrecise : Obligations.FaultsArePrecise := by
  intro s t c n hs hstep ht
  obtain ⟨hne, -⟩ | ⟨-, -, he⟩ | ⟨-, -, -, he⟩ | ⟨-, -, i, -, he⟩ := step_cases s
  · exact absurd hs hne
  · cases he.symm.trans hstep
    exact eq_setStatus_of_takeFault ht
  · cases he.symm.trans hstep
    exact eq_setStatus_of_takeFault ht
  · obtain ⟨_, _, -, rfl⟩ | ⟨-, rfl⟩ := exec_next_cases (he.symm.trans hstep)
    · exact eq_setStatus_of_takeFault ht
    · exact absurd ht (effect_status_ne_faulted i hs c n)

end Sys2Proof.Machine
